-- ==== Sys2Proof/Word.lean ====
section
/-! DEFINITION. The word types the spec treats as bits (00_scope.md R9): bytes, the 16-bit CRC value and the
5-bit register index. Addresses and lengths are natural numbers (R10: address sums never wrap). -/
namespace Sys2Proof

/-- A byte of caller memory or of a frame (R9, R50). -/
abbrev Byte := BitVec 8

/-- A value of the 16-bit CRC register (R36, R101). -/
abbrev CrcWord := BitVec 16

/-- A 5-bit register index (R22). -/
abbrev RegNum := BitVec 5

end Sys2Proof
end

