-- ==== Sys2Proof/Config.lean ====
section
/-! DEFINITION. What the spec leaves as parameters (00_scope.md R8) and the values it leaves open. The constants it
fixes (R7) stand where they are used, in Machine/Ops.lean. -/
namespace Sys2Proof

/-- One entry of `HOST_BINDING` (R8): register number `reg` of codec instance `inst` is reached at these places, bus
addresses or ports by number. DESIGN CHOICE (notes/assumptions/21.md): the spec gives the parameter no form. -/
structure HostPort where
  inst : Nat
  reg : RegNum
  places : List Nat
deriving DecidableEq, Repr

/-- `HOST_BINDING` (R8, 60_exceptions.md R192): how the host reaches the register set. Any list is one. -/
abbrev HostBinding := List HostPort

/-- The open parameters (R8) that are not the shape of another field: `ADDR_W` bits of a caller-memory address, `LEN_W`
bits of a length register, and `HOST_BINDING`. The fourth, `N_INST`, is the length of the state's list of codec
instances. -/
structure Params where
  /-- `ADDR_W`, at least 1. -/
  addrW : Nat
  /-- `LEN_W`, at least 9, so that 266 fits. -/
  lenW : Nat
  /-- `HOST_BINDING`, any. No step reads it: steps are register actions, whatever bus carries them (R8, R192). -/
  hostBinding : HostBinding
deriving DecidableEq, Repr

/-- The parameters of the reset state. DESIGN CHOICE (notes/assumptions/2.md): the widths 16 and 16, which
95_test_vectors.md uses, and the binding that reaches no register. Unsafe only for claims about the reset state itself. -/
def Config.resetParams : Params := { addrW := 16, lenW := 16, hostBinding := [] }

/-- `N_INST` of the reset state. DESIGN CHOICE (notes/assumptions/2.md): 2, the number 95_test_vectors.md section 6
uses. Unsafe only for claims about the reset state itself. -/
def Config.resetInstances : Nat := 2

/-- What a byte of caller memory reads as that the memory list does not name. DESIGN CHOICE
(notes/assumptions/3.md): 0x00; the launch bytes are a parameter (R50, R202) and a list of cells can hold any of
them. Unsafe only for claims about the reset state's memory. -/
def Config.unlistedByte : Byte := 0x00

/-- A FREE VALUE, applied to a counter in the state: the byte a host memory action that races with an operation in
flight leaves (MW) or returns (MR). The spec records `fault RACE` (20_memory.md R58) and states no byte. DESIGN
CHOICE (notes/assumptions/9.md), safe: nothing constrains it. -/
opaque Config.racedByte : Nat → Byte

end Sys2Proof
end

