-- ==== Sys2Proof/Syntax.lean ====
section
/-! DEFINITION. Syntax, whole: the four operations of spec/opcode_table.json, the registers of 10_state.md R22, the
host's actions (30_encoding.md R86) and the pseudo-instructions (R87). -/
namespace Sys2Proof

/-- The operations of 30_encoding.md R82, one constructor per row of spec/opcode_table.json. A command carries no
operand (R81): the operands are the request registers (R85). -/
inductive Instr where
  /-- `CRC16`, 40_checksum.md R105. -/
  | crc16
  /-- `FRAME`, 41_encoder.md R120. -/
  | frame
  /-- `ENCODE` ("pack"), 41_encoder.md R124. -/
  | encode
  /-- `DECODE` ("unpack"), 42_decoder.md R150. -/
  | decode
deriving DecidableEq, Repr

/-- The registers of one codec instance (10_state.md R22): request registers first, then response registers. -/
inductive Reg where
  | cmd | aBase | aLen | dBase | dCap
  | iVer | iDst | iSrc | iType | iCmdId | iSeq | iLast | iPBase | iPLen
  | status | crc | written
  | fVer | fDst | fSrc | fType | fCmdId | fSeq | fLast | fPBase | fPLen
deriving DecidableEq, Repr

/-- The value a host register write carries: a number, or the value the host's latest read returned (the
`<value>` of `copyframe`, R87). -/
inductive HostVal where
  | lit (v : Nat)
  | lastRead
deriving DecidableEq, Repr

/-- One action of the host (30_encoding.md R86). `k` names the codec instance (60_exceptions.md R193). -/
inductive HostAction where
  /-- `hw REG, v`: `HW(n, v)` on instance `k`, 10_state.md R31; with register 0 it starts an operation. -/
  | hw (k : Nat) (n : RegNum) (v : HostVal)
  /-- `hr REG`: `HR(n)` on instance `k`, 10_state.md R32. -/
  | hr (k : Nat) (n : RegNum)
  /-- `mw a, b`: `MW(a, v)`, 20_memory.md R53. -/
  | mw (a : Nat) (v : Byte)
  /-- `mr a`: `MR(a)`, 20_memory.md R53. -/
  | mr (a : Nat)
  /-- `reset`: `RESET(k)`, 70_reset_and_hazards.md R201. -/
  | reset (k : Nat)
deriving DecidableEq, Repr

/-- The agents whose steps make up an execution (20_memory.md R63): the host, and each codec instance, whose one
kind of step is COMPLETE. -/
inductive Agent where
  | host
  | codec (k : Nat)
deriving DecidableEq, Repr

/-- The nine operands of the `frame` pseudo-instruction, in its order (30_encoding.md R87). -/
structure FrameArgs where
  ver : Nat
  dst : Nat
  src : Nat
  type : Nat
  cmdId : Nat
  seq : Nat
  last : Nat
  pbase : Nat
  plen : Nat
deriving DecidableEq, Repr

/-- The pseudo-instructions of 30_encoding.md R87. -/
inductive Pseudo where
  | crc16 (base n : Nat)
  | frame (f : FrameArgs)
  | encode (dbase dcap : Nat)
  | decode (base n : Nat)
  | wait
  | copyframe
deriving DecidableEq, Repr

end Sys2Proof
end

