-- ==== Sys2Proof/WellFormed.lean ====
section
/-! DEFINITION. The checks a term must pass to mean something: the parameters' constraints (00_scope.md R8), and for
host actions that they name an instance that exists (60_exceptions.md R193) and a value that was read. An operation
has no operand field, so every `Instr` is well formed (30_encoding.md R81). -/
namespace Sys2Proof

/-- The constraints of R8: `ADDR_W ≥ 1`, `LEN_W ≥ 9`. `HOST_BINDING` may be any. -/
def Params.wf (p : Params) : Bool := decide (1 ≤ p.addrW) && decide (9 ≤ p.lenW)

/-- Every operation is well formed: format CMD has no field besides the operation code (30_encoding.md R81). -/
def Instr.wf : Instr → Bool
  | .crc16 => true
  | .frame => true
  | .encode => true
  | .decode => true

/-- A host action names an instance `0 … N_INST − 1` (60_exceptions.md R193). Register numbers, values and addresses
are not checked here: the machine refuses the bad ones itself (10_state.md R31, R32; 20_memory.md R53). -/
def HostAction.wf (nInst : Nat) : HostAction → Bool
  | .hw k _ _ => decide (k < nInst)
  | .hr k _ => decide (k < nInst)
  | .mw _ _ => true
  | .mr _ => true
  | .reset k => decide (k < nInst)

/-- Whether the action is a read, which returns a value to the host. -/
def HostAction.isRead : HostAction → Bool
  | .hr _ _ => true
  | .mr _ => true
  | .hw _ _ _ => false
  | .mw _ _ => false
  | .reset _ => false

/-- A host program whose actions are well formed and which names the value of its latest read only after a read
(`haveRead`: one happened before these actions). -/
def programWf (nInst : Nat) : Bool → List HostAction → Bool
  | _, [] => true
  | haveRead, a :: rest =>
    a.wf nInst
      && (match a with
          | .hw _ _ .lastRead => haveRead
          | _ => true)
      && programWf nInst (haveRead || a.isRead) rest

end Sys2Proof
end

