-- ==== Sys2Proof/Decode.lean ====
section
/-! DEFINITION. The encodings: the command byte (30_encoding.md R81 to R83), read and written from the same table;
the register numbers and access classes of 10_state.md R22; the host binding's view of them (00_scope.md R8); the expansion of the pseudo-instructions (R87). -/
namespace Sys2Proof

/-- A row of the operation table: the command byte under `mask` equals `pattern`. -/
structure CmdRow where
  op : Instr
  mask : Byte
  pattern : Byte
deriving DecidableEq, Repr

/-- The four rows of spec/opcode_table.json (30_encoding.md R82): all eight bits are the operation code (R81). -/
def cmdTable : List CmdRow :=
  [ { op := .crc16,  mask := 0xFF, pattern := 0x01 },
    { op := .frame,  mask := 0xFF, pattern := 0x02 },
    { op := .encode, mask := 0xFF, pattern := 0x03 },
    { op := .decode, mask := 0xFF, pattern := 0x04 } ]

/-- Why a command byte is no operation. -/
inductive DecodeError where
  /-- 30_encoding.md R83: `OP = 0x00` and `0x05 … 0xFF` are reserved. -/
  | reservedOp (op : Byte)
deriving DecidableEq, Repr

/-- The operation a command byte names (R82), or its rejection by name (R83). Total on every byte. -/
def decode (cmd : Byte) : Except DecodeError Instr :=
  match cmdTable.find? (fun r => cmd &&& r.mask == r.pattern) with
  | some r => .ok r.op
  | none => .error (.reservedOp cmd)

/-- The command byte of an operation (R82). -/
def encode : Instr → Byte
  | .crc16 => 0x01
  | .frame => 0x02
  | .encode => 0x03
  | .decode => 0x04

/-- The instruction the decoder reads from the `nbits` bits `w` of an opcode-table row: a command is one 8-bit
register write, with no other length (R81). -/
def decodeTableWord (nbits w : Nat) : Option Instr :=
  if nbits = 8 ∧ w < 256 then
    match decode (BitVec.ofNat 8 w) with
    | .ok i => some i
    | .error _ => none
  else none

/-- The number of a register (10_state.md R22). -/
def Reg.num : Reg → RegNum
  | .cmd => 0 | .aBase => 1 | .aLen => 2 | .dBase => 3 | .dCap => 4
  | .iVer => 5 | .iDst => 6 | .iSrc => 7 | .iType => 8 | .iCmdId => 9 | .iSeq => 10 | .iLast => 11
  | .iPBase => 12 | .iPLen => 13
  | .status => 16 | .crc => 17 | .written => 18
  | .fVer => 19 | .fDst => 20 | .fSrc => 21 | .fType => 22 | .fCmdId => 23 | .fSeq => 24 | .fLast => 25
  | .fPBase => 26 | .fPLen => 27

/-- The registers in ascending number (10_state.md R22). -/
def Reg.all : List Reg :=
  [.cmd, .aBase, .aLen, .dBase, .dCap, .iVer, .iDst, .iSrc, .iType, .iCmdId, .iSeq, .iLast, .iPBase, .iPLen,
   .status, .crc, .written, .fVer, .fDst, .fSrc, .fType, .fCmdId, .fSeq, .fLast, .fPBase, .fPLen]

/-- The register a number names; none for the reserved numbers 14, 15 and 28 to 31 (10_state.md R22). -/
def Reg.ofNum (n : RegNum) : Option Reg := Reg.all.find? (fun r => r.num == n)

/-- Registers 0 to 13, which only the host writes (10_state.md R23). The others are response registers (R24). -/
def Reg.isRequest (r : Reg) : Bool := decide (r.num.toNat ≤ 13)

/-- The width in bits of a register (10_state.md R22). -/
def Reg.width (p : Params) : Reg → Nat
  | .cmd => 8 | .aBase => p.addrW | .aLen => p.lenW | .dBase => p.addrW | .dCap => p.lenW
  | .iVer => 8 | .iDst => 8 | .iSrc => 8 | .iType => 8 | .iCmdId => 8 | .iSeq => 8 | .iLast => 1
  | .iPBase => p.addrW | .iPLen => p.lenW
  | .status => 3 | .crc => 16 | .written => p.lenW
  | .fVer => 8 | .fDst => 8 | .fSrc => 8 | .fType => 8 | .fCmdId => 8 | .fSeq => 8 | .fLast => 1
  | .fPBase => p.addrW | .fPLen => 8

/-- The register names of 10_state.md R22. -/
def Reg.name : Reg → String
  | .cmd => "CMD" | .aBase => "A_BASE" | .aLen => "A_LEN" | .dBase => "D_BASE" | .dCap => "D_CAP"
  | .iVer => "I_VER" | .iDst => "I_DST" | .iSrc => "I_SRC" | .iType => "I_TYPE" | .iCmdId => "I_CMDID"
  | .iSeq => "I_SEQ" | .iLast => "I_LAST" | .iPBase => "I_PBASE" | .iPLen => "I_PLEN"
  | .status => "STATUS" | .crc => "CRC" | .written => "WRITTEN"
  | .fVer => "F_VER" | .fDst => "F_DST" | .fSrc => "F_SRC" | .fType => "F_TYPE" | .fCmdId => "F_CMDID"
  | .fSeq => "F_SEQ" | .fLast => "F_LAST" | .fPBase => "F_PBASE" | .fPLen => "F_PLEN"

/-- The mnemonics of 30_encoding.md R82. -/
def Instr.mnemonic : Instr → String
  | .crc16 => "CRC16"
  | .frame => "FRAME"
  | .encode => "ENCODE"
  | .decode => "DECODE"

/-- The instance and register number a bus address or port reaches: the first entry that lists it (00_scope.md R8). -/
def HostBinding.target (b : HostBinding) (place : Nat) : Option (Nat × RegNum) :=
  (b.find? (fun e => e.places.contains place)).map (fun e => (e.inst, e.reg))

/-- The host action a read at a bus address or port stands for: `HR(n)` of the register it reaches, if any (00_scope.md R8,
10_state.md R32). -/
def HostBinding.read (b : HostBinding) (place : Nat) : Option HostAction :=
  (b.target place).map (fun t => .hr t.1 t.2)

/-- The host action a write at a bus address or port stands for: `HW(n, v)` of the register it reaches, if any (00_scope.md
R8, 10_state.md R31). -/
def HostBinding.write (b : HostBinding) (place : Nat) (v : HostVal) : Option HostAction :=
  (b.target place).map (fun t => .hw t.1 t.2 v)

/-- `hw REG, v` on instance `k`. -/
def hwReg (k : Nat) (r : Reg) (v : Nat) : HostAction := .hw k r.num (.lit v)

/-- `cmd MNEMONIC` on instance `k`: `hw CMD, OP(MNEMONIC)`, which starts the operation (30_encoding.md R86). -/
def cmdAction (k : Nat) (i : Instr) : HostAction := hwReg k .cmd (encode i).toNat

/-- One step of `copyframe`: read `src` and write the value read into `dst` (30_encoding.md R87). -/
def copyReg (k : Nat) (src dst : Reg) : List HostAction :=
  [.hr k src.num, .hw k dst.num .lastRead]

/-- The host actions a pseudo-instruction expands into on instance `k`, in their order (30_encoding.md R87). -/
def Pseudo.expand (k : Nat) : Pseudo → List HostAction
  | .crc16 base n => [hwReg k .aBase base, hwReg k .aLen n, cmdAction k .crc16]
  | .frame f =>
    [hwReg k .iVer f.ver, hwReg k .iDst f.dst, hwReg k .iSrc f.src, hwReg k .iType f.type,
     hwReg k .iCmdId f.cmdId, hwReg k .iSeq f.seq, hwReg k .iLast f.last, hwReg k .iPBase f.pbase,
     hwReg k .iPLen f.plen, cmdAction k .frame]
  | .encode dbase dcap => [hwReg k .dBase dbase, hwReg k .dCap dcap, cmdAction k .encode]
  | .decode base n => [hwReg k .aBase base, hwReg k .aLen n, cmdAction k .decode]
  | .wait => [.hr k Reg.status.num]
  | .copyframe =>
    copyReg k .fVer .iVer ++ copyReg k .fDst .iDst ++ copyReg k .fSrc .iSrc ++ copyReg k .fType .iType
      ++ copyReg k .fCmdId .iCmdId ++ copyReg k .fSeq .iSeq ++ copyReg k .fLast .iLast
      ++ copyReg k .fPBase .iPBase ++ copyReg k .fPLen .iPLen

end Sys2Proof
end

