-- ==== Sys2Proof/Machine/State.lean ====
section
/-! DEFINITION. The machine's state as plain data: every register of 10_state.md R22 for each codec instance, its
phase (R41) and fault record (R40), the caller memory all instances share (20_memory.md R50), the refused mark (R40),
the parameters (00_scope.md R8), and the host's input: its remaining actions and the schedule (R63). -/
namespace Sys2Proof.Machine

/-- Caller memory: (address, byte) cells in one canonical form (Machine/Ops.lean, `Memory.wf`). -/
abbrev Memory := List Host.Cell

/-- A region of caller memory: the addresses `[base, base + len)` (20_memory.md R51). -/
structure Region where
  base : Nat
  len : Nat
deriving DecidableEq, Repr

/-- The footprint of an operation (20_memory.md R58): the addresses it may read and those it may write. -/
structure Footprint where
  rd : Region
  wr : Region
deriving DecidableEq, Repr

/-- The phase of a codec instance (10_state.md R41): idle, or busy with the operation whose code is `op`, with the
footprint computed at START (30_encoding.md R80). -/
inductive Phase where
  | idle
  | busy (op : Byte) (fp : Footprint)
deriving DecidableEq, Repr

/-- The model faults of 60_exceptions.md R186, recorded in an instance's fault record. -/
inductive ModelFault where
  /-- `UNWRITTEN(R)`: an operation or the host reads register `R`, which holds no value. -/
  | unwritten (r : Reg)
  /-- `RACE`: conflicting footprints, or a conflicting host memory action during flight. -/
  | race
  /-- `OVERLAP`: ENCODE's payload region meets the bytes it would write. -/
  | overlap
deriving DecidableEq, Repr

/-- The refusals of 60_exceptions.md R187, any of which sets the refused mark. -/
inductive Request where
  /-- `RESERVED_OP(v)`: START with a reserved operation code. -/
  | reservedOp (v : Byte)
  /-- `REGION_RANGE`: a region or host address passes `2^ADDR_W`. -/
  | regionRange
  /-- `HOST_WRITE_NOT_WRITABLE(n)`: host write to a response or reserved register number. -/
  | hostWriteNotWritable (n : RegNum)
  /-- `HOST_READ_RESERVED(n)`: host read of a reserved register number. -/
  | hostReadReserved (n : RegNum)
  /-- `VALUE_TOO_WIDE(n, v)`: host write of a value that does not fit the register. -/
  | valueTooWide (n : RegNum) (v : Nat)
  /-- `RESET_BUSY`: reset of an instance with an operation in flight. -/
  | resetBusy
deriving DecidableEq, Repr

/-- The request registers, 0 to 13 (10_state.md R22, R23). `none` is the spec's ⊥, "holds no value" (00_scope.md R13),
the value every register has after reset (R200; notes/assumptions/1.md). Registers of `ADDR_W` or `LEN_W` bits are
natural numbers below `2^ADDR_W` or `2^LEN_W` (notes/assumptions/16.md). -/
structure ReqRegs where
  cmd    : Option Byte := none
  aBase  : Option Nat := none
  aLen   : Option Nat := none
  dBase  : Option Nat := none
  dCap   : Option Nat := none
  iVer   : Option Byte := none
  iDst   : Option Byte := none
  iSrc   : Option Byte := none
  iType  : Option Byte := none
  iCmdId : Option Byte := none
  iSeq   : Option Byte := none
  iLast  : Option (BitVec 1) := none
  iPBase : Option Nat := none
  iPLen  : Option Nat := none
deriving DecidableEq, Repr

/-- The response registers, 16 to 27 (10_state.md R22, R24); `none` is ⊥, which is also what every operation leaves in
a response register its outcome does not define (R30). -/
structure RespRegs where
  status  : Option (BitVec 3) := none
  crc     : Option CrcWord := none
  written : Option Nat := none
  fVer    : Option Byte := none
  fDst    : Option Byte := none
  fSrc    : Option Byte := none
  fType   : Option Byte := none
  fCmdId  : Option Byte := none
  fSeq    : Option Byte := none
  fLast   : Option (BitVec 1) := none
  fPBase  : Option Nat := none
  fPLen   : Option Byte := none
deriving DecidableEq, Repr

/-- One codec instance (10_state.md R20): its registers, its phase (R41) and its fault record (R40). The CRC working
register and the sequencing state exist only inside a COMPLETE step (R36, R37, R200; notes/assumptions/14.md). -/
structure Codec where
  req   : ReqRegs := {}
  resp  : RespRegs := {}
  phase : Phase := .idle
  fault : Option ModelFault := none
deriving DecidableEq, Repr

/-- The machine. -/
structure State where
  /-- `ADDR_W`, `LEN_W` and `HOST_BINDING` (00_scope.md R8); no step changes them. -/
  params : Params
  /-- The codec instances, numbered from 0; `N_INST` is their number (60_exceptions.md R193). -/
  codecs : List Codec
  /-- Caller memory (20_memory.md R50). -/
  mem : Memory
  /-- The host's actions still to come, in program order (10_state.md R34). -/
  program : List HostAction
  /-- What the host's reads returned, newest first; `none` for a read that ended in a fault (R32, R53). -/
  returned : List (Option Nat)
  /-- THE MODEL'S OWN: the agents asked to move next (notes/assumptions/5.md). -/
  schedule : List Agent
  /-- THE MODEL'S OWN: the instance whose COMPLETE is executed (notes/assumptions/6.md). -/
  active : Nat
  /-- The refused mark (10_state.md R40, 60_exceptions.md R187), with the refusal that set it. -/
  refused : Option Request
  /-- THE MODEL'S OWN: how many free values of racing host memory actions were used (notes/assumptions/9.md). -/
  raceCount : Nat
deriving DecidableEq, Repr

/-- Why the machine stops with a fault. The spec's own model faults are not here: they are recorded in the state (R186). -/
inductive Fault where
  /-- Raised by `step` when no agent can move and the state is not final: every operation in flight belongs to a
  faulted instance, which "takes no further step", and the host is out of actions or held for ever by a faulted
  instance (60_exceptions.md R186). Safe: the spec gives no further step. -/
  | stuck
  /-- Raised by `step` when a host action writes the value of its latest read and there is none: the host's program is
  ill formed (WellFormed.lean, `programWf`). Safe: the spec gives such a program no meaning. -/
  | noValueRead
deriving DecidableEq, Repr

/-- Why the machine has no meaning for what it is asked. -/
inductive Refusal where
  /-- Raised by an arm of `exec` for an operation without a meaning; no arm does. Safe. -/
  | notModelled (mnemonic : String)
  /-- Raised by `step` in a state whose refused mark is set: "the model has no meaning for the request at all" and the
  state "is never final" (60_exceptions.md R187). Safe. -/
  | marked (r : Request)
  /-- Raised by `step` for a host action, and by `exec` for a COMPLETE, on an instance number that does not exist; the
  instances are numbered `0 … N_INST − 1` (60_exceptions.md R193; notes/assumptions/13.md). Safe. -/
  | noSuchInstance (k : Nat)
deriving DecidableEq, Repr

/-- The launch state of 70_reset_and_hazards.md R202: `n` instances in their reset state (R200), memory as given, no
fault recorded and the refused mark clear; with the host's program and the schedule to follow. -/
def State.launch (p : Params) (n : Nat) (mem : Memory) (program : List HostAction) (schedule : List Agent) : State where
  params := p
  codecs := List.replicate n {}
  mem := mem
  program := program
  returned := []
  schedule := schedule
  active := 0
  refused := none
  raceCount := 0

/-- The machine right after reset (70_reset_and_hazards.md R200, R202), with nothing listed in memory and no host
action to come; the parameters are DESIGN CHOICE (notes/assumptions/2.md, 3.md, 4.md). -/
def State.reset : State := State.launch Config.resetParams Config.resetInstances [] [] []

end Sys2Proof.Machine
end

