-- ==== Sys2Proof/Machine/Ops.lean ====
section
/-! DEFINITION. The named operations every step goes through: the constants the spec fixes (00_scope.md R7), reads and
writes of caller memory (20_memory.md R52), regions and footprints as sets of addresses (R51, R58), register access
by number (10_state.md R22), and the three ways an operation or request can fail, each ONE shared operation: `raise`
(60_exceptions.md R181), a model fault (R186) and a refusal (R187). There is no return from any of them (R185). -/
namespace Sys2Proof.Machine

/-! ### Constants (00_scope.md R7) -/

/-- `START_BYTE`. -/
def startByte : Byte := 0x7E
/-- `HDR_LEN`, the header bytes. -/
def hdrLen : Nat := 8
/-- `CRC_LEN`, the checksum bytes. -/
def crcLen : Nat := 2
/-- `MAX_PAYLOAD`. -/
def maxPayload : Nat := 255
/-- `CRC_POLY`. -/
def crcPoly : CrcWord := 0x1021
/-- `CRC_INIT`. -/
def crcInit : CrcWord := 0xFFFF
/-- `total_size` of a frame with `l` payload bytes: `1 + 8 + L + 2 = 11 + L` (30_encoding.md R71). -/
def totalSize (l : Nat) : Nat := 1 + hdrLen + l + crcLen
/-- `MIN_FRAME`, 11. -/
def minFrame : Nat := totalSize 0
/-- `MAX_FRAME`, 266. -/
def maxFrame : Nat := totalSize maxPayload

/-! ### Caller memory (20_memory.md R50, R52) -/

/-- `MemRead(a, 1)`: the byte at address `a` (R52). -/
def Memory.read : Memory → Nat → Byte
  | [], _ => Config.unlistedByte
  | (b, v) :: rest, a => if a = b then v else Memory.read rest a

/-- The cells that say `a` holds `v`: none where an unlisted address reads so already. -/
def Memory.cell (a : Nat) (v : Byte) : Memory := if v = Config.unlistedByte then [] else [(a, v)]

/-- `MemWrite(a, 1, v)`: sets the byte at `a` and changes no other (R52). It keeps the canonical form `Memory.wf`. -/
def Memory.write : Memory → Nat → Byte → Memory
  | [], a, v => Memory.cell a v
  | (b, w) :: rest, a, v =>
    if a < b then Memory.cell a v ++ (b, w) :: rest
    else if a = b then Memory.cell a v ++ rest
    else (b, w) :: Memory.write rest a v

/-- The bytes `vs` written at `base`, `base + 1`, …, in order. -/
def Memory.writeBytes : Memory → Nat → List Byte → Memory
  | m, _, [] => m
  | m, base, v :: vs => Memory.writeBytes (Memory.write m base v) (base + 1) vs

/-- `Buf(base, n)`: the bytes at `base`, …, `base + n − 1` (00_scope.md R12). -/
def Memory.buf (m : Memory) (base n : Nat) : List Byte := (List.range n).map (fun i => Memory.read m (base + i))

/-- Whether every address of the list is at least `lo`, the addresses strictly rise and no cell says what an unlisted
address reads as. -/
def Memory.wfFrom : Nat → Memory → Bool
  | _, [] => true
  | lo, (a, v) :: rest => decide (lo ≤ a) && decide (v ≠ Config.unlistedByte) && Memory.wfFrom (a + 1) rest

/-- The canonical form of a memory list: equal memories are equal lists. -/
def Memory.wf (m : Memory) : Bool := Memory.wfFrom 0 m

/-! ### Regions and footprints (20_memory.md R51, R58) -/

/-- The region with no address. -/
def Region.empty : Region := { base := 0, len := 0 }

/-- Whether the region names the address: `base ≤ a < base + len` (R51). -/
def Region.has (r : Region) (a : Nat) : Bool := decide (r.base ≤ a) && decide (a < r.base + r.len)

/-- Whether two regions share an address. -/
def Region.meets (r q : Region) : Bool :=
  decide (max r.base q.base < min (r.base + r.len) (q.base + q.len))

/-- A region is legal when it does not pass the top of memory; sums do not wrap (R51). -/
def Region.legal (p : Params) (r : Region) : Bool := decide (r.base + r.len ≤ 2 ^ p.addrW)

/-- Two footprints conflict when one's write set meets the other's read or write set (R58). -/
def Footprint.conflicts (f g : Footprint) : Bool :=
  f.wr.meets g.rd || f.wr.meets g.wr || g.wr.meets f.rd

/-- A host `MR(a)` conflicts with a footprint when `a` is in its write set (R58). -/
def Footprint.hitByRead (f : Footprint) (a : Nat) : Bool := f.wr.has a

/-- A host `MW(a, v)` conflicts with a footprint when `a` is in its read or write set (R58). -/
def Footprint.hitByWrite (f : Footprint) (a : Nat) : Bool := f.rd.has a || f.wr.has a

/-! ### Registers by number (10_state.md R22) -/

/-- The value of a register as the integer the host reads; `none` is ⊥. -/
def Codec.read (c : Codec) : Reg → Option Nat
  | .cmd => c.req.cmd.map BitVec.toNat
  | .aBase => c.req.aBase
  | .aLen => c.req.aLen
  | .dBase => c.req.dBase
  | .dCap => c.req.dCap
  | .iVer => c.req.iVer.map BitVec.toNat
  | .iDst => c.req.iDst.map BitVec.toNat
  | .iSrc => c.req.iSrc.map BitVec.toNat
  | .iType => c.req.iType.map BitVec.toNat
  | .iCmdId => c.req.iCmdId.map BitVec.toNat
  | .iSeq => c.req.iSeq.map BitVec.toNat
  | .iLast => c.req.iLast.map BitVec.toNat
  | .iPBase => c.req.iPBase
  | .iPLen => c.req.iPLen
  | .status => c.resp.status.map BitVec.toNat
  | .crc => c.resp.crc.map BitVec.toNat
  | .written => c.resp.written
  | .fVer => c.resp.fVer.map BitVec.toNat
  | .fDst => c.resp.fDst.map BitVec.toNat
  | .fSrc => c.resp.fSrc.map BitVec.toNat
  | .fType => c.resp.fType.map BitVec.toNat
  | .fCmdId => c.resp.fCmdId.map BitVec.toNat
  | .fSeq => c.resp.fSeq.map BitVec.toNat
  | .fLast => c.resp.fLast.map BitVec.toNat
  | .fPBase => c.resp.fPBase
  | .fPLen => c.resp.fPLen.map BitVec.toNat

/-- `v` truncated to the width of register `r` (00_scope.md R12). -/
def truncReg (p : Params) (r : Reg) (v : Nat) : Nat := v % 2 ^ r.width p

/-- `reg[R] <- v` for a request register (00_scope.md R12): `v` truncated to the register's width. A response
register is not written here; only operations write those (10_state.md R24). -/
def ReqRegs.write (p : Params) (q : ReqRegs) (r : Reg) (v : Nat) : ReqRegs :=
  match r with
  | .cmd => { q with cmd := some (BitVec.ofNat 8 v) }
  | .aBase => { q with aBase := some (truncReg p .aBase v) }
  | .aLen => { q with aLen := some (truncReg p .aLen v) }
  | .dBase => { q with dBase := some (truncReg p .dBase v) }
  | .dCap => { q with dCap := some (truncReg p .dCap v) }
  | .iVer => { q with iVer := some (BitVec.ofNat 8 v) }
  | .iDst => { q with iDst := some (BitVec.ofNat 8 v) }
  | .iSrc => { q with iSrc := some (BitVec.ofNat 8 v) }
  | .iType => { q with iType := some (BitVec.ofNat 8 v) }
  | .iCmdId => { q with iCmdId := some (BitVec.ofNat 8 v) }
  | .iSeq => { q with iSeq := some (BitVec.ofNat 8 v) }
  | .iLast => { q with iLast := some (BitVec.ofNat 1 v) }
  | .iPBase => { q with iPBase := some (truncReg p .iPBase v) }
  | .iPLen => { q with iPLen := some (truncReg p .iPLen v) }
  | .status => q
  | .crc => q
  | .written => q
  | .fVer => q
  | .fDst => q
  | .fSrc => q
  | .fType => q
  | .fCmdId => q
  | .fSeq => q
  | .fLast => q
  | .fPBase => q
  | .fPLen => q

/-! ### Instances -/

/-- Whether an operation is in flight on the instance (10_state.md R41). -/
def Codec.isBusy (c : Codec) : Bool :=
  match c.phase with
  | .idle => false
  | .busy _ _ => true

/-- Whether host register accesses to the instance are held: until COMPLETE while it is busy (10_state.md R41), for
ever once it is faulted (60_exceptions.md R186). -/
def Codec.held (c : Codec) : Bool := c.isBusy || c.fault.isSome

/-- Whether the instance's COMPLETE step is enabled: it is busy (30_encoding.md R80) and not faulted, since "COMPLETE
never runs on a faulted instance" (60_exceptions.md R183). -/
def Codec.canComplete (c : Codec) : Bool := c.isBusy && c.fault.isNone

/-- The footprint of the operation in flight, if any. -/
def Codec.inFlight (c : Codec) : Option Footprint :=
  match c.phase with
  | .idle => none
  | .busy _ fp => some fp

/-- Replace instance `k`. -/
def State.setCodec (s : State) (k : Nat) (c : Codec) : State := { s with codecs := s.codecs.set k c }

/-! ### Model faults (60_exceptions.md R186) and refusals (R187) -/

/-- Record a model fault in the instance's fault record. The record holds at most one fault and is never cleared
(10_state.md R40), so the first one stays (notes/assumptions/8.md). Nothing else changes: no register, and the phase
stays (notes/assumptions/7.md). -/
def Codec.record (c : Codec) (f : ModelFault) : Codec := { c with fault := c.fault.or (some f) }

/-- `fault F` on instance `k`. -/
def State.recordFault (s : State) (k : Nat) (f : ModelFault) : State :=
  { s with codecs := s.codecs.modify k (fun c => c.record f) }

/-- `refuse F`: sets the global refused mark and changes no register and no memory (60_exceptions.md R187). -/
def State.refuse (s : State) (r : Request) : State := { s with refused := some r }

/-! ### How an operation ends (30_encoding.md R80, COMPLETE) -/

/-- The five error kinds of the source (60_exceptions.md R180). -/
inductive ErrorKind where
  | bufferTooSmall
  | badStartByte
  | badLength
  | badCrc
  | payloadTooLarge
deriving DecidableEq, Repr

/-- How the rule of an operation ends: with its results, with one of the five errors (60_exceptions.md R181), with a
model fault (R186) or with a refusal (R187). -/
inductive OpEnd where
  /-- Success: the twelve response registers (10_state.md R24) and the memory it leaves. -/
  | done (resp : RespRegs) (mem : Memory)
  | raised (e : ErrorKind)
  | faulted (f : ModelFault)
  | refused (r : Request)
deriving DecidableEq, Repr

end Sys2Proof.Machine
end

