-- ==== Sys2Proof/Machine/Flags.lean ====
section
/-! DEFINITION. `STATUS`, the only condition indicator (10_state.md R35): its codes (30_encoding.md R84), and the end
of an operation, which writes all twelve response registers at once (10_state.md R24, R30). -/
namespace Sys2Proof.Machine

/-- The code of an error kind (30_encoding.md R84, 60_exceptions.md R180). 6 and 7 are never written. -/
def ErrorKind.code : ErrorKind → BitVec 3
  | .bufferTooSmall => 1
  | .badStartByte => 2
  | .badLength => 3
  | .badCrc => 4
  | .payloadTooLarge => 5

/-- The code `OK` (30_encoding.md R84). -/
def statusOk : BitVec 3 := 0

/-- The response registers after an error: `STATUS` holds its code, every other one ⊥ (60_exceptions.md R181). -/
def RespRegs.ofError (e : ErrorKind) : RespRegs := { status := some e.code }

/-- The instance after an operation that ended with these response registers: all twelve are written and the phase
is IDLE; the request registers are unchanged (10_state.md R23, R24; 30_encoding.md R80). -/
def Codec.complete (c : Codec) (resp : RespRegs) : Codec := { c with resp := resp, phase := .idle }

/-- `raise E`: `STATUS` gets the code, every other response register ⊥, the phase IDLE, and nothing else changes
(60_exceptions.md R181). -/
def State.raise (s : State) (k : Nat) (c : Codec) (e : ErrorKind) : State :=
  s.setCodec k (c.complete (RespRegs.ofError e))

/-- The state after COMPLETE of the operation of instance `k`, which was `c`, ended so. -/
def State.finish (s : State) (k : Nat) (c : Codec) : OpEnd → State
  | .done resp mem => { s.setCodec k (c.complete resp) with mem := mem }
  | .raised e => s.raise k c e
  | .faulted f => s.recordFault k f
  | .refused r => s.refuse r

end Sys2Proof.Machine
end

