-- ==== Sys2Proof/Machine/Operands.lean ====
section
/-! DEFINITION. Operands (30_encoding.md R85): which request registers an operation reads (10_state.md R22), reading
one (00_scope.md R12, R13), the regions they form, and the footprint computed from them at START (20_memory.md R58). -/
namespace Sys2Proof.Machine

/-- The request registers an operation reads, in ascending number (10_state.md R22; 70_reset_and_hazards.md R204). -/
def opReads : Instr → List Reg
  | .crc16 => [.aBase, .aLen]
  | .frame => [.iVer, .iDst, .iSrc, .iType, .iCmdId, .iSeq, .iLast, .iPBase, .iPLen]
  | .encode => [.dBase, .dCap, .iVer, .iDst, .iSrc, .iType, .iCmdId, .iSeq, .iLast, .iPBase, .iPLen]
  | .decode => [.aBase, .aLen]

/-- The lowest-numbered register the operation reads that holds no value (30_encoding.md R80). -/
def Codec.firstUnwritten (c : Codec) (i : Instr) : Option Reg :=
  (opReads i).find? (fun r => (c.read r).isNone)

/-- `reg[R]` inside an operation: the value, or `fault UNWRITTEN(R)` where the register holds none (00_scope.md R12). -/
def reading {α : Type} (r : Reg) (v : Option α) (rest : α → OpEnd) : OpEnd :=
  match v with
  | none => .faulted (.unwritten r)
  | some x => rest x

/-- The region `(A_BASE, A_LEN)` (30_encoding.md R85). -/
def ReqRegs.input (q : ReqRegs) : Region := { base := q.aBase.getD 0, len := q.aLen.getD 0 }

/-- The footprint of an operation, from the request registers alone (20_memory.md R58). It is computed at START after
the check that none of them is ⊥ (30_encoding.md R80), so the numbers `getD` gives an empty register are never used. -/
def footprint (i : Instr) (q : ReqRegs) : Footprint :=
  let plen := min (q.iPLen.getD 0) maxPayload
  match i with
  | .crc16 => { rd := q.input, wr := .empty }
  | .frame => { rd := .empty, wr := .empty }
  | .encode =>
    { rd := { base := q.iPBase.getD 0, len := plen },
      wr := { base := q.dBase.getD 0, len := min (q.dCap.getD 0) (totalSize plen) } }
  | .decode => { rd := { base := q.aBase.getD 0, len := min (q.aLen.getD 0) maxFrame }, wr := .empty }

/-- Execute an operation's rule as the COMPLETE step of the active instance: it reads the request registers and the
memory, and ends in one of the four ways (30_encoding.md R80). -/
def State.runOp (s : State) (op : Params → ReqRegs → Memory → OpEnd) : Host.Outcome State Fault Refusal :=
  match s.codecs[s.active]? with
  | none => .refused (.noSuchInstance s.active)
  | some c => .next (s.finish s.active c (op s.params c.req s.mem))

end Sys2Proof.Machine
end

