-- ==== Sys2Proof/Machine/Checksum.lean ====
section
/-! DEFINITION. The CRC function (40_checksum.md R100 to R102) and the operation CRC16 (R105). -/
namespace Sys2Proof.Machine

/-- One of the eight shifts of R101: bit 15 is tested before the shift, the polynomial is XORed in after it. -/
def crcShift (c : CrcWord) : CrcWord := if c.getLsbD 15 then (c <<< 1) ^^^ crcPoly else c <<< 1

/-- `CrcUpdate(c, b)` (R101): the byte goes into bits 15 to 8, then eight shifts, most-significant bit first. -/
def crcUpdate (c : CrcWord) (b : Byte) : CrcWord :=
  Nat.repeat crcShift 8 (c ^^^ (b.zeroExtend 16 <<< 8))

/-- The CRC register after the bytes, from the value `c` it holds (R102, R104). -/
def crcContinue (c : CrcWord) (bytes : List Byte) : CrcWord := bytes.foldl crcUpdate c

/-- `Crc16(s)` (R102): from `0xFFFF`, the bytes in order, no final XOR. -/
def crc16 (bytes : List Byte) : CrcWord := crcContinue crcInit bytes

/-- The pseudocode of CRC16 (R105). -/
def crc16Op (p : Params) (q : ReqRegs) (m : Memory) : OpEnd :=
  reading .aBase q.aBase fun base =>
  reading .aLen q.aLen fun n =>
  if !Region.legal p { base := base, len := n } then .refused .regionRange
  else .done { status := some statusOk, crc := some (crc16 (Memory.buf m base n)) } m

/-- `CRC16` (R105). -/
def execCrc16 (s : State) : Host.Outcome State Fault Refusal := s.runOp crc16Op

end Sys2Proof.Machine
end

