-- ==== Sys2Proof/Machine/Encoder.lean ====
section
/-! DEFINITION. Frame construction and the encoder: FRAME (41_encoder.md R120) and ENCODE (R124). -/
namespace Sys2Proof.Machine

/-- The pseudocode of FRAME (R120). It reads no memory and checks no region (R122). -/
def frameOp (p : Params) (q : ReqRegs) (m : Memory) : OpEnd :=
  reading .iPLen q.iPLen fun n =>
  if n > maxPayload then .raised .payloadTooLarge
  else
    reading .iVer q.iVer fun ver =>
    reading .iDst q.iDst fun dst =>
    reading .iSrc q.iSrc fun src =>
    reading .iType q.iType fun type =>
    reading .iCmdId q.iCmdId fun cmdId =>
    reading .iSeq q.iSeq fun seq =>
    reading .iLast q.iLast fun last =>
    reading .iPBase q.iPBase fun pbase =>
    .done
      { status := some statusOk,
        fVer := some ver, fDst := some dst, fSrc := some src, fType := some type,
        fCmdId := some cmdId, fSeq := some seq, fLast := some last,
        fPBase := some (truncReg p .fPBase pbase), fPLen := some (BitVec.ofNat 8 n) } m

/-- `FRAME` (R120). -/
def execFrame (s : State) : Host.Outcome State Fault Refusal := s.runOp frameOp

/-- The two bytes of a CRC, big-endian: high byte first (20_memory.md R55). -/
def crcBytes (c : CrcWord) : List Byte := [c.extractLsb' 8 8, c.extractLsb' 0 8]

/-- The bytes of the frame with these header bytes and payload (30_encoding.md R70): the start byte, the header, the
payload and the CRC over header and payload. -/
def frameBytes (hdr payload : List Byte) : List Byte :=
  startByte :: (hdr ++ payload ++ crcBytes (crc16 (hdr ++ payload)))

/-- The eight header bytes in their order (30_encoding.md R73, R85; 41_encoder.md R130). -/
def headerBytes (ver dst src type cmdId seq : Byte) (last : BitVec 1) (l : Nat) : List Byte :=
  [ver, dst, src, type, cmdId, seq, last.zeroExtend 8, BitVec.ofNat 8 l]

/-- The pseudocode of ENCODE (R124), its checks in the order of 60_exceptions.md R183. The payload is read before the
frame is written. -/
def encodeOp (p : Params) (q : ReqRegs) (m : Memory) : OpEnd :=
  reading .iPLen q.iPLen fun l =>
  if l > maxPayload then .raised .payloadTooLarge
  else
    reading .iPBase q.iPBase fun pbase =>
    reading .dBase q.dBase fun dbase =>
    reading .dCap q.dCap fun cap =>
    if !Region.legal p { base := pbase, len := l } || !Region.legal p { base := dbase, len := cap } then
      .refused .regionRange
    else if cap < totalSize l then .raised .bufferTooSmall
    else if Region.meets { base := pbase, len := l } { base := dbase, len := totalSize l } then .faulted .overlap
    else
      reading .iVer q.iVer fun ver =>
      reading .iDst q.iDst fun dst =>
      reading .iSrc q.iSrc fun src =>
      reading .iType q.iType fun type =>
      reading .iCmdId q.iCmdId fun cmdId =>
      reading .iSeq q.iSeq fun seq =>
      reading .iLast q.iLast fun last =>
      .done
        { status := some statusOk, written := some (truncReg p .written (totalSize l)) }
        (Memory.writeBytes m dbase
          (frameBytes (headerBytes ver dst src type cmdId seq last l) (Memory.buf m pbase l)))

/-- `ENCODE` (R124). -/
def execEncode (s : State) : Host.Outcome State Fault Refusal := s.runOp encodeOp

end Sys2Proof.Machine
end

