-- ==== Sys2Proof/Machine/Decoder.lean ====
section
/-! DEFINITION. The decoder: DECODE (42_decoder.md R150). -/
namespace Sys2Proof.Machine

/-- The received CRC of the frame at `base` with `l` payload bytes: two bytes, high byte first (R155). -/
def receivedCrc (m : Memory) (base l : Nat) : CrcWord :=
  (Memory.read m (base + 9 + l)).zeroExtend 16 <<< 8 ||| (Memory.read m (base + 10 + l)).zeroExtend 16

/-- `F_LAST` from frame byte 7: 0 for `0x00`, 1 for every other value (R156). -/
def lastOfByte (b : Byte) : BitVec 1 := if b = 0x00 then 0 else 1

/-- The response registers of a successful DECODE of the frame at `base` with `l` payload bytes: the header fields
from their fixed offsets and the payload view (R150, R157). -/
def decodedRegs (p : Params) (m : Memory) (base l : Nat) : RespRegs :=
  { status := some statusOk,
    fVer := some (Memory.read m (base + 1)), fDst := some (Memory.read m (base + 2)),
    fSrc := some (Memory.read m (base + 3)), fType := some (Memory.read m (base + 4)),
    fCmdId := some (Memory.read m (base + 5)), fSeq := some (Memory.read m (base + 6)),
    fLast := some (lastOfByte (Memory.read m (base + 7))),
    fPBase := some (truncReg p .fPBase (base + 9)), fPLen := some (BitVec.ofNat 8 l) }

/-- The pseudocode of DECODE (R150): the first failing check ends it (R158). -/
def decodeOp (p : Params) (q : ReqRegs) (m : Memory) : OpEnd :=
  reading .aBase q.aBase fun base =>
  reading .aLen q.aLen fun n =>
  if !Region.legal p { base := base, len := n } then .refused .regionRange
  else if n < minFrame then .raised .bufferTooSmall
  else if Memory.read m base ≠ startByte then .raised .badStartByte
  else
    let l := (Memory.read m (base + 8)).toNat
    if n < totalSize l then .raised .badLength
    else if crc16 (Memory.buf m (base + 1) (hdrLen + l)) ≠ receivedCrc m base l then .raised .badCrc
    else .done (decodedRegs p m base l) m

/-- `DECODE` (R150). -/
def execDecode (s : State) : Host.Outcome State Fault Refusal := s.runOp decodeOp

end Sys2Proof.Machine
end

