-- ==== Sys2Proof/Machine/HostActions.lean ====
section
/-! DEFINITION. The host's actions: register writes and reads (10_state.md R31, R32), the START step a write of CMD makes
(30_encoding.md R80), memory writes and reads with the race check (20_memory.md R53, R58), and RESET
(70_reset_and_hazards.md R201). -/
namespace Sys2Proof.Machine

/-! ### START (30_encoding.md R80) -/

/-- Whether the operation in flight on the instance, if any, has a footprint that conflicts with `fp` (20_memory.md R58). -/
def Codec.conflictsWith (c : Codec) (fp : Footprint) : Bool :=
  match c.inFlight with
  | none => false
  | some g => fp.conflicts g

/-- Whether `fp` conflicts with an operation in flight on an instance other than `k` (20_memory.md R58). -/
def State.conflictsElsewhere (s : State) (k : Nat) (fp : Footprint) : Bool :=
  (s.codecs.eraseIdx k).any (fun c => c.conflictsWith fp)

/-- `fault RACE` at a START of instance `k`: recorded on the starting instance and on every instance whose operation in
flight conflicts (20_memory.md R58). -/
def State.raceAtStart (s : State) (k : Nat) (fp : Footprint) : State :=
  { s with codecs := s.codecs.mapIdx (fun j c => if j = k ∨ c.conflictsWith fp then c.record .race else c) }

/-- `START(v)` on instance `k`, which is `c` (30_encoding.md R80). The operation code is decoded first, so a refused START
writes no register, not even CMD; then the request registers the operation reads are checked in ascending number, then
the race; only then is the operation in flight. -/
def State.start (s : State) (k : Nat) (c : Codec) (op : Byte) : State :=
  match decode op with
  | .error (.reservedOp v) => s.refuse (.reservedOp v)
  | .ok i =>
    let c' : Codec := { c with req := { c.req with cmd := some op } }
    let s' := s.setCodec k c'
    match c'.firstUnwritten i with
    | some r => s'.recordFault k (.unwritten r)
    | none =>
      let fp := footprint i c'.req
      if s'.conflictsElsewhere k fp then s'.raceAtStart k fp
      else s'.setCodec k { c' with phase := .busy op fp }

/-! ### Register access (10_state.md R31, R32) -/

/-- `HW(n, v)` on instance `k`, which is `c` and does not hold the access (R31). -/
def State.hostWrite (s : State) (k : Nat) (c : Codec) (n : RegNum) (v : Nat) : State :=
  match Reg.ofNum n with
  | none => s.refuse (.hostWriteNotWritable n)
  | some r =>
    if !r.isRequest then s.refuse (.hostWriteNotWritable n)
    else if 2 ^ r.width s.params ≤ v then s.refuse (.valueTooWide n v)
    else if r = .cmd then s.start k c (BitVec.ofNat 8 v)
    else s.setCodec k { c with req := c.req.write s.params r v }

/-- `HR(n)` on instance `k`, which is `c` and does not hold the access (R32): the value goes to the host, and no register
changes. A read of a register that holds ⊥ records the fault and returns no value (notes/assumptions/10.md). -/
def State.hostRead (s : State) (k : Nat) (c : Codec) (n : RegNum) : State :=
  match Reg.ofNum n with
  | none => s.refuse (.hostReadReserved n)
  | some r =>
    match c.read r with
    | none => { s.recordFault k (.unwritten r) with returned := none :: s.returned }
    | some v => { s with returned := some v :: s.returned }

/-- The number a host register write carries; none where it names the latest read and that returned nothing. -/
def State.hostValue (s : State) : HostVal → Option Nat
  | .lit v => some v
  | .lastRead => s.returned.head?.join

/-! ### Memory access (20_memory.md R53, R58) -/

/-- Whether `hit` holds of the footprint of the operation in flight on the instance, if any. -/
def Codec.hitBy (hit : Footprint → Bool) (c : Codec) : Bool :=
  match c.inFlight with
  | none => false
  | some fp => hit fp

/-- `fault RACE` of a host memory action: recorded on the instance of every operation in flight it conflicts with
(20_memory.md R58). -/
def State.raceByHost (s : State) (hit : Footprint → Bool) : State :=
  { s with codecs := s.codecs.map (fun c => if c.hitBy hit then c.record .race else c), raceCount := s.raceCount + 1 }

/-- `MW(a, v)` (20_memory.md R53). Where it races with an operation in flight, what byte it leaves at `a` is a free
value (notes/assumptions/9.md). -/
def State.hostMemWrite (s : State) (a : Nat) (v : Byte) : State :=
  if 2 ^ s.params.addrW ≤ a then s.refuse .regionRange
  else if s.codecs.any (Codec.hitBy (fun fp => fp.hitByWrite a)) then
    { s.raceByHost (fun fp => fp.hitByWrite a) with mem := Memory.write s.mem a (Config.racedByte s.raceCount) }
  else { s with mem := Memory.write s.mem a v }

/-- `MR(a)` (20_memory.md R53). Where it races with an operation in flight, what byte it returns is a free value
(notes/assumptions/9.md). -/
def State.hostMemRead (s : State) (a : Nat) : State :=
  if 2 ^ s.params.addrW ≤ a then s.refuse .regionRange
  else if s.codecs.any (Codec.hitBy (fun fp => fp.hitByRead a)) then
    { s.raceByHost (fun fp => fp.hitByRead a) with
        returned := some (Config.racedByte s.raceCount).toNat :: s.returned }
  else { s with returned := some (Memory.read s.mem a).toNat :: s.returned }

/-! ### RESET (70_reset_and_hazards.md R201) -/

/-- `RESET` of instance `k`, which is `c`: refused while it is busy; otherwise every register holds ⊥ and the phase is
IDLE (R200). The fault record and memory are not affected. -/
def State.hostReset (s : State) (k : Nat) (c : Codec) : State :=
  if c.isBusy then s.refuse .resetBusy else s.setCodec k { fault := c.fault }

/-! ### The host's step -/

/-- The instance whose hold the action waits for: host register accesses are held (10_state.md R41), memory actions and
RESET are not. -/
def accessedInstance : HostAction → Option Nat
  | .hw k _ _ => some k
  | .hr k _ => some k
  | .mw _ _ => none
  | .mr _ => none
  | .reset _ => none

/-- Whether the action is held: it accesses a register of an instance that is busy or faulted (10_state.md R41,
60_exceptions.md R186). -/
def State.holds (s : State) (a : HostAction) : Bool :=
  match accessedInstance a with
  | none => false
  | some k =>
    match s.codecs[k]? with
    | none => false
    | some c => c.held

/-- A host action on instance `k`, which must exist (60_exceptions.md R193). -/
def State.onInstance (s : State) (k : Nat) (act : Codec → Host.Outcome State Fault Refusal) :
    Host.Outcome State Fault Refusal :=
  match s.codecs[k]? with
  | none => .refused (.noSuchInstance k)
  | some c => act c

/-- One host action, not held, in a state from whose program it was taken. -/
def State.hostAct (s : State) : HostAction → Host.Outcome State Fault Refusal
  | .hw k n v =>
    s.onInstance k fun c =>
      match s.hostValue v with
      | none => .fault .noValueRead
      | some x => .next (s.hostWrite k c n x)
  | .hr k n => s.onInstance k fun c => .next (s.hostRead k c n)
  | .mw a v => .next (s.hostMemWrite a v)
  | .mr a => .next (s.hostMemRead a)
  | .reset k => s.onInstance k fun c => .next (s.hostReset k c)

/-- The host's step: its next action in program order. -/
def State.hostStep (s : State) : Host.Outcome State Fault Refusal :=
  match s.program with
  | [] => .next s
  | a :: rest => State.hostAct { s with program := rest } a

end Sys2Proof.Machine
end

