-- ==== Sys2Proof/Machine/Schedule.lean ====
section
/-! DEFINITION. Which agent moves next (20_memory.md R63, R64), the operation an instance is busy with, and how an
operation is placed in flight from outside. -/
namespace Sys2Proof.Machine

/-- Whether the agent can move: the host when it has an action that is not held (10_state.md R41), an instance when its
COMPLETE is enabled (30_encoding.md R80). -/
def State.enabled (s : State) : Agent → Bool
  | .host =>
    match s.program with
    | [] => false
    | a :: _ => !s.holds a
  | .codec k =>
    match s.codecs[k]? with
    | none => false
    | some c => c.canComplete

/-- The agents in the order the fallback asks them: the host, then the instances by number. -/
def State.agents (s : State) : List Agent := .host :: (List.range s.codecs.length).map Agent.codec

/-- The agent that moves: the one the schedule asks for if it can move, else the first that can, so that a held host
waits while operations complete (20_memory.md R64) and every COMPLETE eventually happens (30_encoding.md R80).
DESIGN CHOICE (notes/assumptions/5.md): the spec leaves the order open and some schedule gives each. -/
def State.turn (s : State) : Option Agent :=
  match s.schedule with
  | a :: _ => if s.enabled a then some a else s.agents.find? s.enabled
  | [] => s.agents.find? s.enabled

/-- The state with the schedule's request used up. -/
def State.tick (s : State) : State := { s with schedule := s.schedule.tail }

/-- The state in which `exec` performs instance `k`'s COMPLETE. -/
def State.activate (s : State) (k : Nat) : State := { s.tick with active := k }

/-- The operation instance `k` is busy with, decoded from the code its START kept (30_encoding.md R80); none when it is
idle or does not exist. -/
def State.fetch (s : State) (k : Nat) : Option (Except DecodeError Instr) :=
  match s.codecs[k]? with
  | none => none
  | some c =>
    match c.phase with
    | .idle => none
    | .busy op _ => some (decode op)

/-- A final state: the host has no action left, every instance is idle, no fault is recorded and the refused mark is
clear (60_exceptions.md R186, R187: a faulted or refused state is never final). -/
def State.isFinal (s : State) : Bool :=
  s.program.isEmpty && s.refused.isNone && s.codecs.all (fun c => !c.isBusy && c.fault.isNone)

/-- Give each of these registers that holds ⊥ the value 0 (used by `placeCommand` only). -/
def ReqRegs.fill (p : Params) (c : Codec) (q : ReqRegs) (rs : List Reg) : ReqRegs :=
  rs.foldl (fun q r => if (c.read r).isNone then q.write p r 0 else q) q

/-- The instance with the operation `op` in flight, as the host's register writes and START would leave it
(30_encoding.md R80): request registers the operation reads and nobody wrote hold 0 (notes/assumptions/4.md). -/
def Codec.withCommand (p : Params) (c : Codec) (op : Byte) : Codec :=
  match decode op with
  | .error _ =>
    { c with req := { c.req with cmd := some op }, phase := .busy op { rd := .empty, wr := .empty }, fault := none }
  | .ok i =>
    let q := ReqRegs.fill p c { c.req with cmd := some op } (opReads i)
    { c with req := q, phase := .busy op (footprint i q), fault := none }

/-- Place a command in flight on instance 0 and ask for its COMPLETE next (notes/assumptions/4.md). -/
def State.placeCommand (s : State) (op : Byte) : State :=
  { s with
    codecs := (s.codecs.headD {}).withCommand s.params op :: s.codecs.tail,
    schedule := .codec 0 :: s.schedule,
    refused := none }

end Sys2Proof.Machine
end

