-- ==== Sys2Proof/Machine/Step.lean ====
section
/-! DEFINITION. One step of the machine: one atomic step of one agent (20_memory.md R63). -/
namespace Sys2Proof.Machine

/-- One step. A state whose refused mark is set has no further meaning (60_exceptions.md R187). Otherwise the agent whose
turn it is moves: the host performs its next action, an instance performs the COMPLETE step of the operation it is busy
with (30_encoding.md R80). With nobody able to move, a final state stays as it is (60_exceptions.md R195) and any other is
stuck (R186). -/
def step (s : State) : Host.Outcome State Fault Refusal :=
  match s.refused with
  | some r => .refused (.marked r)
  | none =>
    match s.turn with
    | some .host => s.tick.hostStep
    | some (.codec k) =>
      match s.fetch k with
      | some (.ok i) => exec i (s.activate k)
      | some (.error (.reservedOp v)) => .next (s.refuse (.reservedOp v))
      | none => .fault .stuck
    | none => if s.isFinal then .next s else .fault .stuck

/-- The state whose next step executes the command byte in the `nbits` bits `w`: the machine fetches no program, the host
starts operations, so this stands for the host's register writes and START on instance 0 (notes/assumptions/4.md). -/
def State.withFetchWord (s : State) (nbits w : Nat) : State := s.placeCommand (BitVec.ofNat 8 (w % 2 ^ nbits))

end Sys2Proof.Machine
end

