-- ==== Sys2Proof/Safety.lean ====
section
/-! DEFINITION. What counts as a sound state and a safe run, in the terms claims use. -/
namespace Sys2Proof.Machine

/-- Every register value fits the register's width (10_state.md R22). -/
def Codec.Fits (p : Params) (c : Codec) : Prop := ∀ r v, c.read r = some v → v < 2 ^ r.width p

/-- An operation in flight is one of the four, its CMD still reads so, every request register it reads holds a value, and
its footprint is the one those registers give (30_encoding.md R80, 10_state.md R23). -/
def Codec.InFlightSound (c : Codec) : Prop :=
  ∀ op fp, c.phase = .busy op fp →
    ∃ i, decode op = .ok i ∧ c.req.cmd = some op ∧ c.firstUnwritten i = none ∧ fp = footprint i c.req

/-- The contents the response registers can have: nothing (after reset), or what one outcome of one operation defines
(10_state.md R30). So STATUS is at most 5 (30_encoding.md R84) and WRITTEN lies in 11..266 (41_encoder.md R128). -/
inductive RespRegs.Legal : RespRegs → Prop
  | empty : RespRegs.Legal {}
  | error (e : ErrorKind) : RespRegs.Legal { status := some e.code }
  | crc16 (x : CrcWord) : RespRegs.Legal { status := some 0, crc := some x }
  | encode (w : Nat) (lo : 11 ≤ w) (hi : w ≤ 266) : RespRegs.Legal { status := some 0, written := some w }
  | frame (ver dst src type cmdId seq plen : Byte) (last : BitVec 1) (pbase : Nat) :
    RespRegs.Legal
      { status := some 0, fVer := some ver, fDst := some dst, fSrc := some src, fType := some type,
        fCmdId := some cmdId, fSeq := some seq, fLast := some last, fPBase := some pbase, fPLen := some plen }

/-- The memory list is in canonical form and names only addresses of the address space (20_memory.md R50). -/
def State.MemSound (s : State) : Prop :=
  Memory.wf s.mem = true ∧ ∀ cell ∈ s.mem, cell.1 < 2 ^ s.params.addrW

/-- No two operations in flight have conflicting footprints: a START that would conflict faults instead (20_memory.md R58). -/
def State.NoConflict (s : State) : Prop :=
  ∀ j k : Nat, j ≠ k → ∀ cj ck : Codec, s.codecs[j]? = some cj → s.codecs[k]? = some ck →
    ∀ f g : Footprint, cj.inFlight = some f → ck.inFlight = some g → f.conflicts g = false

/-- The invariant of the machine: it holds after reset and every step keeps it. -/
structure State.Inv (s : State) : Prop where
  params : s.params.wf = true
  instances : 1 ≤ s.codecs.length
  mem : s.MemSound
  fits : ∀ c ∈ s.codecs, c.Fits s.params
  inFlight : ∀ c ∈ s.codecs, c.InFlightSound
  legal : ∀ c ∈ s.codecs, c.resp.Legal
  noConflict : s.NoConflict

/-- A state with no fault recorded and the refused mark clear, which "a model's claims assume" (60_exceptions.md R186). -/
def State.Clean (s : State) : Prop := s.refused = none ∧ ∀ c ∈ s.codecs, c.fault = none

/-- The states a run can reach in zero or more steps. -/
inductive Reachable : State → State → Prop
  | refl (s : State) : Reachable s s
  | step {s t u : State} (first : Machine.step s = .next t) (rest : Reachable t u) : Reachable s u

/-- A safe run from `s`: no state it reaches has a fault recorded or the refused mark set, and no step of it stops. -/
def State.Safe (s : State) : Prop :=
  ∀ t, Reachable s t → t.Clean ∧ ∃ u, Machine.step t = .next u

/-- How many operations in flight can still complete. -/
def State.pending (s : State) : Nat := s.codecs.countP Codec.canComplete

/-- A bound on the steps left: two for each host action (it may start an operation), one for each operation in flight. -/
def State.workLeft (s : State) : Nat := 2 * s.program.length + s.pending

/-- Memory reads alike outside the region. -/
def Memory.AgreeOutside (r : Region) (m m' : Memory) : Prop := ∀ a, r.has a = false → Memory.read m' a = Memory.read m a

/-- Memory reads alike inside the region. -/
def Memory.AgreeOn (r : Region) (m m' : Memory) : Prop := ∀ a, r.has a = true → Memory.read m' a = Memory.read m a

/-- `t` differs from `s` at most in instance `k` and in memory. -/
structure State.FrameExcept (k : Nat) (s t : State) : Prop where
  params : t.params = s.params
  count : t.codecs.length = s.codecs.length
  others : ∀ j : Nat, j ≠ k → t.codecs[j]? = s.codecs[j]?
  program : t.program = s.program
  returned : t.returned = s.returned
  schedule : t.schedule = s.schedule
  active : t.active = s.active
  raceCount : t.raceCount = s.raceCount

/-- The operands of ENCODE as its rule reads them (41_encoder.md R124). -/
structure EncodeArgs where
  dbase : Nat
  cap : Nat
  ver : Byte
  dst : Byte
  src : Byte
  type : Byte
  cmdId : Byte
  seq : Byte
  last : BitVec 1
  pbase : Nat
  plen : Nat
deriving DecidableEq, Repr

/-- The instance's request registers hold these operands. -/
structure Codec.HoldsEncode (c : Codec) (e : EncodeArgs) : Prop where
  dbase : c.req.dBase = some e.dbase
  cap : c.req.dCap = some e.cap
  ver : c.req.iVer = some e.ver
  dst : c.req.iDst = some e.dst
  src : c.req.iSrc = some e.src
  type : c.req.iType = some e.type
  cmdId : c.req.iCmdId = some e.cmdId
  seq : c.req.iSeq = some e.seq
  last : c.req.iLast = some e.last
  pbase : c.req.iPBase = some e.pbase
  plen : c.req.iPLen = some e.plen

/-- The header bytes ENCODE serialises (30_encoding.md R73, 41_encoder.md R130). -/
def EncodeArgs.header (e : EncodeArgs) : List Byte :=
  headerBytes e.ver e.dst e.src e.type e.cmdId e.seq e.last e.plen

/-- The payload region `[I_PBASE, I_PBASE + L)`. -/
def EncodeArgs.payload (e : EncodeArgs) : Region := { base := e.pbase, len := e.plen }

/-- The destination buffer `[D_BASE, D_BASE + D_CAP)`. -/
def EncodeArgs.dest (e : EncodeArgs) : Region := { base := e.dbase, len := e.cap }

/-- The bytes a successful ENCODE writes, `[D_BASE, D_BASE + 11 + L)`. -/
def EncodeArgs.target (e : EncodeArgs) : Region := { base := e.dbase, len := 11 + e.plen }

/-- The operands pass every check of ENCODE (60_exceptions.md R183). -/
structure EncodeArgs.Passes (p : Params) (e : EncodeArgs) : Prop where
  plen : e.plen ≤ 255
  payload : e.pbase + e.plen ≤ 2 ^ p.addrW
  dest : e.dbase + e.cap ≤ 2 ^ p.addrW
  room : 11 + e.plen ≤ e.cap
  apart : e.payload.meets e.target = false

/-- `s` with instance `k` replaced by `c`, and nothing else changed. -/
def State.withInstance (s : State) (k : Nat) (c : Codec) : State := { s with codecs := s.codecs.set k c }

/-- `s` after the active instance, which was `c`, completed with the response registers `o`: only those and the phase, now
IDLE, differ (10_state.md R24). -/
def State.answered (s : State) (c : Codec) (o : RespRegs) : State :=
  s.withInstance s.active { c with resp := o, phase := .idle }

/-- `s` once the host's next action is taken from its program, with `rest` left, and the schedule's request used up. -/
def State.taken (s : State) (rest : List HostAction) : State :=
  { s with program := rest, schedule := s.schedule.tail }

/-- The host's turn, with its next action `a` and the actions `rest` after it: then `a` is not held (10_state.md R41). -/
structure State.HostTurn (s : State) (a : HostAction) (rest : List HostAction) : Prop where
  clear : s.refused = none
  turn : s.turn = some .host
  program : s.program = a :: rest

/-- The number the host's next register write carries is `x`: it names `x`, or names the value of the host's latest read,
which returned `x` (30_encoding.md R87; notes/assumptions/12.md). -/
def State.Carries (s : State) (v : HostVal) (x : Nat) : Prop :=
  v = .lit x ∨ (v = .lastRead ∧ s.returned.head? = some (some x))

/-- `s` with another `HOST_BINDING`, and nothing else changed. -/
def State.rebind (s : State) (b : HostBinding) : State := { s with params := { s.params with hostBinding := b } }

/-- The nine Frame fields an instance's request registers hold (41_encoder.md R120). -/
structure FrameFields where
  ver : Byte
  dst : Byte
  src : Byte
  type : Byte
  cmdId : Byte
  seq : Byte
  last : BitVec 1
  pbase : Nat
  plen : Nat
deriving DecidableEq, Repr

/-- The instance's `I_*` registers hold these fields. -/
structure Codec.HoldsFrame (c : Codec) (f : FrameFields) : Prop where
  ver : c.req.iVer = some f.ver
  dst : c.req.iDst = some f.dst
  src : c.req.iSrc = some f.src
  type : c.req.iType = some f.type
  cmdId : c.req.iCmdId = some f.cmdId
  seq : c.req.iSeq = some f.seq
  last : c.req.iLast = some f.last
  pbase : c.req.iPBase = some f.pbase
  plen : c.req.iPLen = some f.plen

/-- The response registers that present a Frame: STATUS OK, `F_VER … F_PLEN`, every other one ⊥ (10_state.md R30). -/
def RespRegs.ofFrame (f : FrameFields) : RespRegs :=
  { status := some 0,
    fVer := some f.ver, fDst := some f.dst, fSrc := some f.src, fType := some f.type, fCmdId := some f.cmdId,
    fSeq := some f.seq, fLast := some f.last, fPBase := some f.pbase, fPLen := some (BitVec.ofNat 8 f.plen) }

/-- The response registers each operation can leave, by outcome (the table of 10_state.md R30). -/
def OutcomeRow (i : Instr) (o : RespRegs) : Prop :=
  match i with
  | .crc16 => ∃ x, o = { status := some 0, crc := some x }
  | .frame => (∃ f, o = RespRegs.ofFrame f) ∨ o = { status := some 5 }
  | .encode => (∃ w, o = { status := some 0, written := some w }) ∨ o = { status := some 5 } ∨ o = { status := some 1 }
  | .decode =>
    (∃ f, o = RespRegs.ofFrame f) ∨ o = { status := some 1 } ∨ o = { status := some 2 } ∨ o = { status := some 3 }
      ∨ o = { status := some 4 }

/-- The input region of CRC16 and DECODE as the registers hold it. -/
structure Codec.HoldsInput (c : Codec) (base n : Nat) : Prop where
  base : c.req.aBase = some base
  len : c.req.aLen = some n

/-- The frame at `base` in memory, its length field `l`, is valid in a buffer of `n` bytes: every check of DECODE passes
(42_decoder.md R150). The received CRC is big-endian (20_memory.md R55). -/
structure ValidFrame (m : Memory) (base n l : Nat) : Prop where
  start : Memory.read m base = 0x7E
  length : (Memory.read m (base + 8)).toNat = l
  room : 11 + l ≤ n
  crc : (crc16 (Memory.buf m (base + 1) (8 + l))).toNat
    = (Memory.read m (base + 9 + l)).toNat * 256 + (Memory.read m (base + 10 + l)).toNat

/-- The Frame fields of the frame at `base` with `l` payload bytes, as DECODE reads them (42_decoder.md R150, R156, R157). -/
def fieldsAt (m : Memory) (base l : Nat) : FrameFields :=
  { ver := Memory.read m (base + 1), dst := Memory.read m (base + 2), src := Memory.read m (base + 3),
    type := Memory.read m (base + 4), cmdId := Memory.read m (base + 5), seq := Memory.read m (base + 6),
    last := if Memory.read m (base + 7) = 0 then 0 else 1, pbase := base + 9, plen := l }

end Sys2Proof.Machine
end

