-- ==== Sys2Proof/Certificates/Slice0/Obligations.lean ====
section
/-! DEFINITION. The statements for the provers. Each says which rule of spec/ it formalises or rests on; OBLIGATIONS.json lists
them. -/

open Sys2Proof Sys2Proof.Machine

/-! ### Reset and the invariant -/

/-- 70_reset_and_hazards.md R202: at launch every instance is in the reset state of R200, memory holds the launch bytes, no
fault is recorded and the refused mark is clear. -/
def Obligations.LaunchStateIsResetState : Prop :=
  ∀ (p : Params) (n : Nat) (mem : Memory) (program : List HostAction) (schedule : List Agent),
    let s := State.launch p n mem program schedule
    s.codecs.length = n ∧
    (∀ c ∈ s.codecs, (∀ r, c.read r = none) ∧ c.phase = .idle ∧ c.fault = none) ∧
    s.mem = mem ∧ s.refused = none

/-- The invariant holds of the reset state (its parameters and its memory are the model's choice: notes/assumptions/2.md, 3.md). -/
def Obligations.ResetStateIsSound : Prop := State.reset.Inv

/-- Every step keeps the invariant: register widths, canonical memory inside the address space, sound operations in flight
with footprints that do not conflict, and response registers as the table of 10_state.md R30 allows. -/
def Obligations.StepKeepsSoundness : Prop := ∀ s t : State, s.Inv → step s = .next t → t.Inv

/-! ### Commands -/

/-- 30_encoding.md R82: the four command bytes, decoded and encoded. -/
def Obligations.CommandBytesDecode : Prop :=
  decode 0x01 = .ok .crc16 ∧ decode 0x02 = .ok .frame ∧ decode 0x03 = .ok .encode ∧ decode 0x04 = .ok .decode ∧
  encode .crc16 = 0x01 ∧ encode .frame = 0x02 ∧ encode .encode = 0x03 ∧ encode .decode = 0x04

/-- 30_encoding.md R83: a START with a reserved code is refused by that name; no register, no memory and no phase changes, and
the refused mark is set. -/
def Obligations.ReservedCommandIsRefused : Prop :=
  ∀ (s : State) (k : Nat) (c : Codec) (w : HostVal) (v : Byte) (rest : List HostAction),
    s.HostTurn (.hw k Reg.cmd.num w) rest → s.Carries w v.toNat → s.codecs[k]? = some c → (v = 0x00 ∨ 0x05 ≤ v) →
    step s = .next { s.taken rest with refused := some (.reservedOp v) }

/-- 10_state.md R22: the register table: the number and the width of each register, and what reading it gives; a number names
the register it is the number of, and 14, 15 and 28 to 31 name none. -/
def Obligations.RegisterNumbersNameRegisters : Prop :=
  (Reg.num .cmd = 0 ∧ Reg.num .aBase = 1 ∧ Reg.num .aLen = 2 ∧ Reg.num .dBase = 3 ∧ Reg.num .dCap = 4 ∧
     Reg.num .iVer = 5 ∧ Reg.num .iDst = 6 ∧ Reg.num .iSrc = 7 ∧ Reg.num .iType = 8 ∧ Reg.num .iCmdId = 9 ∧
     Reg.num .iSeq = 10 ∧ Reg.num .iLast = 11 ∧ Reg.num .iPBase = 12 ∧ Reg.num .iPLen = 13 ∧ Reg.num .status = 16 ∧
     Reg.num .crc = 17 ∧ Reg.num .written = 18 ∧ Reg.num .fVer = 19 ∧ Reg.num .fDst = 20 ∧ Reg.num .fSrc = 21 ∧
     Reg.num .fType = 22 ∧ Reg.num .fCmdId = 23 ∧ Reg.num .fSeq = 24 ∧ Reg.num .fLast = 25 ∧ Reg.num .fPBase = 26 ∧
     Reg.num .fPLen = 27) ∧
  (∀ p : Params,
     Reg.width p .cmd = 8 ∧ Reg.width p .aBase = p.addrW ∧ Reg.width p .aLen = p.lenW ∧ Reg.width p .dBase = p.addrW ∧
     Reg.width p .dCap = p.lenW ∧ Reg.width p .iVer = 8 ∧ Reg.width p .iDst = 8 ∧ Reg.width p .iSrc = 8 ∧
     Reg.width p .iType = 8 ∧ Reg.width p .iCmdId = 8 ∧ Reg.width p .iSeq = 8 ∧ Reg.width p .iLast = 1 ∧
     Reg.width p .iPBase = p.addrW ∧ Reg.width p .iPLen = p.lenW ∧ Reg.width p .status = 3 ∧ Reg.width p .crc = 16 ∧
     Reg.width p .written = p.lenW ∧ Reg.width p .fVer = 8 ∧ Reg.width p .fDst = 8 ∧ Reg.width p .fSrc = 8 ∧
     Reg.width p .fType = 8 ∧ Reg.width p .fCmdId = 8 ∧ Reg.width p .fSeq = 8 ∧ Reg.width p .fLast = 1 ∧
     Reg.width p .fPBase = p.addrW ∧ Reg.width p .fPLen = 8) ∧
  (∀ c : Codec,
     c.read .cmd = c.req.cmd.map BitVec.toNat ∧ c.read .aBase = c.req.aBase ∧ c.read .aLen = c.req.aLen ∧
     c.read .dBase = c.req.dBase ∧ c.read .dCap = c.req.dCap ∧ c.read .iVer = c.req.iVer.map BitVec.toNat ∧
     c.read .iDst = c.req.iDst.map BitVec.toNat ∧ c.read .iSrc = c.req.iSrc.map BitVec.toNat ∧
     c.read .iType = c.req.iType.map BitVec.toNat ∧ c.read .iCmdId = c.req.iCmdId.map BitVec.toNat ∧
     c.read .iSeq = c.req.iSeq.map BitVec.toNat ∧ c.read .iLast = c.req.iLast.map BitVec.toNat ∧
     c.read .iPBase = c.req.iPBase ∧ c.read .iPLen = c.req.iPLen ∧ c.read .status = c.resp.status.map BitVec.toNat ∧
     c.read .crc = c.resp.crc.map BitVec.toNat ∧ c.read .written = c.resp.written ∧
     c.read .fVer = c.resp.fVer.map BitVec.toNat ∧ c.read .fDst = c.resp.fDst.map BitVec.toNat ∧
     c.read .fSrc = c.resp.fSrc.map BitVec.toNat ∧ c.read .fType = c.resp.fType.map BitVec.toNat ∧
     c.read .fCmdId = c.resp.fCmdId.map BitVec.toNat ∧ c.read .fSeq = c.resp.fSeq.map BitVec.toNat ∧
     c.read .fLast = c.resp.fLast.map BitVec.toNat ∧ c.read .fPBase = c.resp.fPBase ∧
     c.read .fPLen = c.resp.fPLen.map BitVec.toNat) ∧
  (∀ r : Reg, Reg.ofNum r.num = some r) ∧
  ∀ n : RegNum, Reg.ofNum n = none ↔ (n = 14 ∨ n = 15 ∨ 28 ≤ n)

/-- 30_encoding.md R87: the expansion of each pseudo-instruction, by register number (10_state.md R22). -/
def Obligations.PseudoInstructionsExpand : Prop :=
  ∀ (k base n : Nat) (f : FrameArgs),
    (Pseudo.crc16 base n).expand k = [.hw k 1 (.lit base), .hw k 2 (.lit n), .hw k 0 (.lit 0x01)] ∧
    (Pseudo.frame f).expand k =
      [.hw k 5 (.lit f.ver), .hw k 6 (.lit f.dst), .hw k 7 (.lit f.src), .hw k 8 (.lit f.type), .hw k 9 (.lit f.cmdId),
       .hw k 10 (.lit f.seq), .hw k 11 (.lit f.last), .hw k 12 (.lit f.pbase), .hw k 13 (.lit f.plen),
       .hw k 0 (.lit 0x02)] ∧
    (Pseudo.encode base n).expand k = [.hw k 3 (.lit base), .hw k 4 (.lit n), .hw k 0 (.lit 0x03)] ∧
    (Pseudo.decode base n).expand k = [.hw k 1 (.lit base), .hw k 2 (.lit n), .hw k 0 (.lit 0x04)] ∧
    Pseudo.wait.expand k = [.hr k 16] ∧
    Pseudo.copyframe.expand k =
      [.hr k 19, .hw k 5 .lastRead, .hr k 20, .hw k 6 .lastRead, .hr k 21, .hw k 7 .lastRead,
       .hr k 22, .hw k 8 .lastRead, .hr k 23, .hw k 9 .lastRead, .hr k 24, .hw k 10 .lastRead,
       .hr k 25, .hw k 11 .lastRead, .hr k 26, .hw k 12 .lastRead, .hr k 27, .hw k 13 .lastRead]

/-- 20_memory.md R63: an agent that can move moves next if the schedule asks for it, so every interleaving of the steps has a
schedule: the step is the host's next action, or that instance's COMPLETE. The schedule is the model's own
(notes/assumptions/5.md). -/
def Obligations.ScheduledAgentMoves : Prop :=
  ∀ (s : State) (a : Agent) (rest : List Agent),
    s.refused = none → s.schedule = a :: rest → s.enabled a = true →
    match a with
    | .host => ∃ (x : HostAction) (p : List HostAction), s.program = x :: p ∧ step s = State.hostAct (s.taken p) x
    | .codec k => ∃ (c : Codec) (op : Byte) (fp : Footprint),
        s.codecs[k]? = some c ∧ c.phase = .busy op fp ∧ c.fault = none ∧
        ∀ i : Instr, decode op = .ok i → step s = exec i (s.activate k)

/-- 30_encoding.md R80: the COMPLETE step of an instance busy with an operation runs that operation. -/
def Obligations.StepRunsDecodedOperation : Prop :=
  ∀ (s : State) (k : Nat) (c : Codec) (op : Byte) (fp : Footprint) (i : Instr),
    s.refused = none → s.turn = some (.codec k) → s.codecs[k]? = some c → c.phase = .busy op fp → decode op = .ok i →
    step s = exec i (s.activate k)

/-- The model's own loading of a command (notes/assumptions/4.md): the next step runs it on instance 0, and it ends in a next
state. -/
def Obligations.PlacedCommandRuns : Prop :=
  ∀ (s : State) (i : Instr),
    let t := s.withFetchWord 8 (encode i).toNat
    step t = exec i (t.activate 0) ∧ ∃ u, step t = .next u

/-! ### The CRC function -/

/-- 40_checksum.md R103: the empty input and the check string "123456789". -/
def Obligations.CrcOfEmptyAndCheckString : Prop :=
  crc16 [] = 0xFFFF ∧ crc16 [0x31, 0x32, 0x33, 0x34, 0x35, 0x36, 0x37, 0x38, 0x39] = 0x29B1

/-- 40_checksum.md R104: continuing from the register value after `x` over the bytes of `y`. -/
def Obligations.CrcContinuesOverConcatenation : Prop :=
  ∀ x y : List Byte, crc16 (x ++ y) = y.foldl crcUpdate (crc16 x)

/-- 20_memory.md R56, 40_checksum.md R101: XORing the byte into the high half and shifting eight times is the bit-serial
register that takes in the byte's bits one at a time, most-significant first. -/
def Obligations.CrcUpdateIsBitSerial : Prop :=
  ∀ (c : CrcWord) (b : Byte),
    crcUpdate c b = (List.range 8).foldl
      (fun (x : CrcWord) i => if (x.getLsbD 15 != b.getLsbD (7 - i)) then (x <<< 1) ^^^ 0x1021#16 else x <<< 1) c

/-- 95_test_vectors.md V-CRC-16, V-CRC-17: appending a message's CRC, high byte first, gives CRC 0. -/
def Obligations.CrcOfMessageWithItsCrcIsZero : Prop :=
  ∀ x : List Byte, crc16 (x ++ [(crc16 x).extractLsb' 8 8, (crc16 x).extractLsb' 0 8]) = 0

/-- The fact behind 42_decoder.md R161, which the spec marks [from general knowledge, not in source]: changing one byte of a message
of fixed length changes its CRC. -/
def Obligations.CrcDetectsOneChangedByte : Prop :=
  ∀ (x y : List Byte) (b b' : Byte), b ≠ b' → crc16 (x ++ b :: y) ≠ crc16 (x ++ b' :: y)

/-! ### CRC16 and FRAME -/

/-- 40_checksum.md R105: on a legal region CRC16 completes with STATUS OK and the CRC of its bytes; nothing else changes. -/
def Obligations.Crc16Completes : Prop :=
  ∀ (s : State) (c : Codec) (base n : Nat),
    s.codecs[s.active]? = some c → c.HoldsInput base n → base + n ≤ 2 ^ s.params.addrW →
    exec .crc16 s = .next (s.answered c { status := some 0, crc := some (crc16 (Memory.buf s.mem base n)) })

/-- 41_encoder.md R120: a Frame with at most 255 payload bytes is copied to the `F_*` registers; nothing else changes. -/
def Obligations.FrameCompletes : Prop :=
  ∀ (s : State) (c : Codec) (f : FrameFields),
    s.codecs[s.active]? = some c → c.HoldsFrame f → f.plen ≤ 255 → f.pbase < 2 ^ s.params.addrW →
    exec .frame s = .next (s.answered c (RespRegs.ofFrame f))

/-- 41_encoder.md R121: FRAME raises PayloadTooLarge exactly when I_PLEN exceeds 255; it then writes STATUS = 5 and every other
response register becomes ⊥. -/
def Obligations.FrameRejectsLongPayload : Prop :=
  ∀ (s : State) (c : Codec) (f : FrameFields),
    s.codecs[s.active]? = some c → c.HoldsFrame f →
    ∃ t c', exec .frame s = .next t ∧ t.codecs[s.active]? = some c' ∧
      (c'.resp.status = some 5 ↔ 255 < f.plen) ∧ (255 < f.plen → c'.resp = { status := some 5 })

/-! ### ENCODE -/

/-- 41_encoder.md R127: a successful ENCODE writes exactly the `11 + L` bytes of the frame, the CRC over the header bytes as
written and the payload, high byte first; and it completes with STATUS OK. -/
def Obligations.EncodeWritesFrame : Prop :=
  ∀ (s : State) (c : Codec) (e : EncodeArgs),
    s.codecs[s.active]? = some c → c.HoldsEncode e → e.Passes s.params → s.params.wf = true → Memory.wf s.mem = true →
    ∃ t, exec .encode s = .next t ∧
      t.codecs = (s.answered c { status := some 0, written := some (11 + e.plen) }).codecs ∧
      Memory.read t.mem e.dbase = 0x7E ∧
      Memory.read t.mem (e.dbase + 1) = e.ver ∧ Memory.read t.mem (e.dbase + 2) = e.dst ∧
      Memory.read t.mem (e.dbase + 3) = e.src ∧ Memory.read t.mem (e.dbase + 4) = e.type ∧
      Memory.read t.mem (e.dbase + 5) = e.cmdId ∧ Memory.read t.mem (e.dbase + 6) = e.seq ∧
      Memory.read t.mem (e.dbase + 7) = (if e.last = 1 then 0x01 else 0x00) ∧
      (Memory.read t.mem (e.dbase + 8)).toNat = e.plen ∧
      (∀ i, i < e.plen → Memory.read t.mem (e.dbase + 9 + i) = Memory.read s.mem (e.pbase + i)) ∧
      (let crc := crc16 (Memory.buf t.mem (e.dbase + 1) (8 + e.plen))
       Memory.read t.mem (e.dbase + 9 + e.plen) = crc.extractLsb' 8 8 ∧
       Memory.read t.mem (e.dbase + 10 + e.plen) = crc.extractLsb' 0 8) ∧
      (∀ a, e.target.has a = false → Memory.read t.mem a = Memory.read s.mem a)

/-- 41_encoder.md R128: WRITTEN is `11 + L`, in 11..266. -/
def Obligations.EncodeReportsLength : Prop :=
  ∀ (s : State) (c : Codec) (e : EncodeArgs),
    s.codecs[s.active]? = some c → c.HoldsEncode e → e.Passes s.params → s.params.wf = true →
    ∃ t c', exec .encode s = .next t ∧ t.codecs[s.active]? = some c' ∧ c'.resp.written = some (11 + e.plen) ∧
      11 ≤ 11 + e.plen ∧ 11 + e.plen ≤ 266

/-- 41_encoder.md R131: whatever its outcome, ENCODE writes no address outside `[D_BASE, D_BASE + 11 + L)`, and none at all if a
register it reads holds ⊥. -/
def Obligations.EncodeTouchesOnlyItsFrame : Prop :=
  ∀ (s t : State) (c : Codec) (a : Nat),
    s.codecs[s.active]? = some c → Memory.wf s.mem = true → exec .encode s = .next t →
    (∀ e, c.HoldsEncode e → e.target.has a = false) → Memory.read t.mem a = Memory.read s.mem a

/-- 41_encoder.md R125: with I_PLEN over 255, ENCODE writes STATUS = 5 before anything else, whatever the other registers hold;
every other response register becomes ⊥ and memory is unchanged. -/
def Obligations.EncodeRejectsLongPayload : Prop :=
  ∀ (s : State) (c : Codec) (n : Nat),
    s.codecs[s.active]? = some c → c.req.iPLen = some n → 255 < n →
    exec .encode s = .next (s.answered c { status := some 5 })

/-- 41_encoder.md R126: a capacity below `11 + L` gives BufferTooSmall: STATUS = 1, every other response register ⊥, memory
unchanged; also where the payload overlaps the destination (R132). -/
def Obligations.EncodeRejectsSmallBuffer : Prop :=
  ∀ (s : State) (c : Codec) (e : EncodeArgs),
    s.codecs[s.active]? = some c → c.HoldsEncode e → e.plen ≤ 255 →
    e.pbase + e.plen ≤ 2 ^ s.params.addrW → e.dbase + e.cap ≤ 2 ^ s.params.addrW → e.cap < 11 + e.plen →
    exec .encode s = .next (s.answered c { status := some 1 })

/-- 41_encoder.md R132: a payload region that shares an address with the bytes ENCODE would write ends in `fault OVERLAP`, with no
memory and no response register written; into a buffer that is too small it reports BufferTooSmall. (That the faulted
instance's phase stays as it was is the model's choice: notes/assumptions/7.md.) -/
def Obligations.EncodeFaultsOnOverlap : Prop :=
  ∀ (s : State) (c : Codec) (e : EncodeArgs) (a : Nat),
    s.codecs[s.active]? = some c → c.fault = none → c.HoldsEncode e → e.plen ≤ 255 →
    e.pbase + e.plen ≤ 2 ^ s.params.addrW → e.dbase + e.cap ≤ 2 ^ s.params.addrW →
    e.payload.has a = true → e.target.has a = true →
    (11 + e.plen ≤ e.cap →
      exec .encode s = .next (s.withInstance s.active { c with fault := some .overlap })) ∧
    (e.cap < 11 + e.plen → exec .encode s = .next (s.answered c { status := some 1 }))

/-- 41_encoder.md R133: two successful ENCODEs of equal Frames give identical bytes and the same WRITTEN, whatever else differs. -/
def Obligations.EncodeIsDeterministic : Prop :=
  ∀ (s s' t t' : State) (c c' d d' : Codec) (e e' : EncodeArgs),
    s.codecs[s.active]? = some c → c.HoldsEncode e → e.Passes s.params → s.params.wf = true → Memory.wf s.mem = true →
    s'.codecs[s'.active]? = some c' → c'.HoldsEncode e' → e'.Passes s'.params → s'.params.wf = true →
    Memory.wf s'.mem = true →
    e.ver = e'.ver → e.dst = e'.dst → e.src = e'.src → e.type = e'.type → e.cmdId = e'.cmdId → e.seq = e'.seq →
    e.last = e'.last → e.plen = e'.plen →
    (∀ i, i < e.plen → Memory.read s.mem (e.pbase + i) = Memory.read s'.mem (e'.pbase + i)) →
    exec .encode s = .next t → exec .encode s' = .next t' →
    t.codecs[s.active]? = some d → t'.codecs[s'.active]? = some d' →
    d.resp = d'.resp ∧ d.resp.written = some (11 + e.plen) ∧
    ∀ i, i < 11 + e.plen → Memory.read t.mem (e.dbase + i) = Memory.read t'.mem (e'.dbase + i)

/-- 20_memory.md R51: CRC16, DECODE and ENCODE refuse a region that passes the top of memory, and a refusal changes no register and
no memory (60_exceptions.md R187). (That the refused instance's phase stays as it was too is the model's reading:
notes/assumptions/17.md, DEDUCED.) -/
def Obligations.IllegalRegionIsRefused : Prop :=
  ∀ (s : State) (c : Codec), s.codecs[s.active]? = some c →
    (∀ base n, c.HoldsInput base n → 2 ^ s.params.addrW < base + n →
      exec .crc16 s = .next { s with refused := some .regionRange } ∧
      exec .decode s = .next { s with refused := some .regionRange }) ∧
    (∀ e, c.HoldsEncode e → e.plen ≤ 255 →
      (2 ^ s.params.addrW < e.pbase + e.plen ∨ 2 ^ s.params.addrW < e.dbase + e.cap) →
      exec .encode s = .next { s with refused := some .regionRange })

/-! ### DECODE -/

/-- 42_decoder.md R150, R156, R157: a valid frame decodes: STATUS OK, the fields from their fixed offsets, `F_LAST = 1` for any
nonzero byte 7, the payload view `(A_BASE + 9, L)`; memory and everything else are unchanged. -/
def Obligations.DecodeAcceptsValidFrame : Prop :=
  ∀ (s : State) (c : Codec) (base n l : Nat),
    s.codecs[s.active]? = some c → c.HoldsInput base n → base + n ≤ 2 ^ s.params.addrW → ValidFrame s.mem base n l →
    exec .decode s = .next (s.answered c (RespRegs.ofFrame (fieldsAt s.mem base l)))

/-- 42_decoder.md R151: a buffer shorter than 11 bytes is BufferTooSmall, whatever memory holds. -/
def Obligations.DecodeRejectsSmallBuffer : Prop :=
  ∀ (s : State) (c : Codec) (base n : Nat),
    s.codecs[s.active]? = some c → c.HoldsInput base n → base + n ≤ 2 ^ s.params.addrW → n < 11 →
    exec .decode s = .next (s.answered c { status := some 1 })

/-- 42_decoder.md R152: with at least 11 bytes, a first byte other than 0x7E is BadStartByte, whatever the rest holds. -/
def Obligations.DecodeRejectsBadStartByte : Prop :=
  ∀ (s : State) (c : Codec) (base n : Nat),
    s.codecs[s.active]? = some c → c.HoldsInput base n → base + n ≤ 2 ^ s.params.addrW → 11 ≤ n →
    Memory.read s.mem base ≠ 0x7E →
    exec .decode s = .next (s.answered c { status := some 2 })

/-- 42_decoder.md R153: a buffer of at least 11 bytes that is shorter than `11 + payload_len` is BadLength. -/
def Obligations.DecodeRejectsBadLength : Prop :=
  ∀ (s : State) (c : Codec) (base n : Nat),
    s.codecs[s.active]? = some c → c.HoldsInput base n → base + n ≤ 2 ^ s.params.addrW → 11 ≤ n →
    Memory.read s.mem base = 0x7E → n < 11 + (Memory.read s.mem (base + 8)).toNat →
    exec .decode s = .next (s.answered c { status := some 3 })

/-- 42_decoder.md R155: a CRC over header and payload that differs from the two bytes after them, read big-endian, is BadCrc. -/
def Obligations.DecodeRejectsBadCrc : Prop :=
  ∀ (s : State) (c : Codec) (base n l : Nat),
    s.codecs[s.active]? = some c → c.HoldsInput base n → base + n ≤ 2 ^ s.params.addrW → 11 + l ≤ n →
    Memory.read s.mem base = 0x7E → (Memory.read s.mem (base + 8)).toNat = l →
    (crc16 (Memory.buf s.mem (base + 1) (8 + l))).toNat
      ≠ (Memory.read s.mem (base + 9 + l)).toNat * 256 + (Memory.read s.mem (base + 10 + l)).toNat →
    exec .decode s = .next (s.answered c { status := some 4 })

/-- 42_decoder.md R154: bytes past the declared frame do not affect DECODE: with any other memory that reads alike on
`[A_BASE, A_BASE + 11 + L)` the instances end alike; and a valid frame followed by any bytes decodes with STATUS OK. -/
def Obligations.DecodeIgnoresTrailingBytes : Prop :=
  ∀ (s : State) (m : Memory) (c : Codec) (base n : Nat),
    s.codecs[s.active]? = some c → c.HoldsInput base n →
    (∀ a, base ≤ a → a < base + 11 + (Memory.read s.mem (base + 8)).toNat → Memory.read m a = Memory.read s.mem a) →
    ∃ t t', exec .decode s = .next t ∧ exec .decode { s with mem := m } = .next t' ∧
      t'.codecs = t.codecs ∧ t'.refused = t.refused ∧
      (∀ l, base + n ≤ 2 ^ s.params.addrW → ValidFrame s.mem base (11 + l) l → 11 + l ≤ n →
        ∃ d, t'.codecs[s.active]? = some d ∧ d.resp.status = some 0)

/-- 42_decoder.md R160: decoding what ENCODE wrote gives back the Frame: after a successful ENCODE at `d`, a DECODE of `(d, n)` with
`n ≥ 11 + L` and the frame bytes unchanged succeeds with every field equal, and the view it returns names the payload bytes
ENCODE read. -/
def Obligations.DecodeInvertsEncode : Prop :=
  ∀ (s t u : State) (c d : Codec) (e : EncodeArgs) (n : Nat),
    s.codecs[s.active]? = some c → c.HoldsEncode e → e.Passes s.params → Memory.wf s.mem = true →
    exec .encode s = .next t →
    u.codecs[u.active]? = some d → d.HoldsInput e.dbase n → 11 + e.plen ≤ n → e.dbase + n ≤ 2 ^ u.params.addrW →
    Memory.AgreeOn e.target t.mem u.mem →
    ∃ v, exec .decode u = .next v ∧
      v = u.answered d (RespRegs.ofFrame
        { ver := e.ver, dst := e.dst, src := e.src, type := e.type, cmdId := e.cmdId, seq := e.seq, last := e.last,
          pbase := e.dbase + 9, plen := e.plen }) ∧ Memory.buf v.mem (e.dbase + 9) e.plen = Memory.buf s.mem e.pbase e.plen

/-- 42_decoder.md R161: a valid frame in a buffer of exactly `11 + L` bytes with one byte changed: BadStartByte at offset 0; BadCrc at
offsets 1 to 7, in the payload and in the CRC field; at offset 8 BadLength for a longer length, else BadCrc or OK. (The spec
marks what it says of offsets 1 to 7 and of the payload [from general knowledge, not in source].) -/
def Obligations.DecodeDetectsOneChangedByte : Prop :=
  ∀ (s : State) (c : Codec) (base l off : Nat) (v : Byte),
    s.codecs[s.active]? = some c → c.HoldsInput base (11 + l) → base + (11 + l) ≤ 2 ^ s.params.addrW →
    Memory.wf s.mem = true → ValidFrame s.mem base (11 + l) l → off < 11 + l → v ≠ Memory.read s.mem (base + off) →
    ∃ t d, exec .decode { s with mem := Memory.write s.mem (base + off) v } = .next t ∧
      t.codecs[s.active]? = some d ∧
      (off = 0 → d.resp = { status := some 2 }) ∧
      (off ≠ 0 → off ≠ 8 → d.resp = { status := some 4 }) ∧
      (off = 8 → l < v.toNat → d.resp = { status := some 3 }) ∧
      (off = 8 → v.toNat < l → d.resp.status = some 4 ∨ d.resp.status = some 0)

/-! ### Every operation -/

/-- 10_state.md R20, R23; 20_memory.md R60: the frame of every operation: no other instance, no request register, and nothing of the
host's changes; CRC16, FRAME and DECODE change no byte of memory. -/
def Obligations.OperationFrame : Prop :=
  ∀ (i : Instr) (s t : State) (c : Codec), s.codecs[s.active]? = some c → exec i s = .next t →
    State.FrameExcept s.active s t ∧
    (∃ c', t.codecs[s.active]? = some c' ∧ c'.req = c.req) ∧
    (i ≠ .encode → ∀ a, Memory.read t.mem a = Memory.read s.mem a)

/-- 00_scope.md R12, R13: an operation that reads a register holding ⊥ is `fault UNWRITTEN` of a register that it reads and that
holds ⊥; FRAME and ENCODE may end in an earlier check of theirs (41_encoder.md R120, R124; 60_exceptions.md R183) before they
read it. Nothing else changes. (START checks for ⊥ first, so no run gets here, and what a COMPLETE does then is the model's
choice: notes/assumptions/20.md; so is that the phase stays on a fault: notes/assumptions/7.md. That it stays on a refusal is
DEDUCED: notes/assumptions/17.md.) -/
def Obligations.OperandWithoutValueFaults : Prop :=
  ∀ (i : Instr) (s : State) (c : Codec) (r : Reg),
    s.codecs[s.active]? = some c → c.fault = none → r ∈ opReads i → c.read r = none →
    (∃ r' ∈ opReads i, c.read r' = none ∧
      exec i s = .next (s.withInstance s.active { c with fault := some (.unwritten r') })) ∨
    ((i = .frame ∨ i = .encode) ∧ (∃ l, c.req.iPLen = some l ∧ 255 < l) ∧
      exec i s = .next (s.answered c { status := some 5 })) ∨
    (i = .encode ∧ ∃ l pbase dbase cap : Nat,
      c.req.iPLen = some l ∧ c.req.iPBase = some pbase ∧ c.req.dBase = some dbase ∧ c.req.dCap = some cap ∧ l ≤ 255 ∧
      if 2 ^ s.params.addrW < pbase + l ∨ 2 ^ s.params.addrW < dbase + cap then
        exec i s = .next { s with refused := some .regionRange }
      else if cap < 11 + l then exec i s = .next (s.answered c { status := some 1 })
      else
        (∃ a, (pbase ≤ a ∧ a < pbase + l) ∧ dbase ≤ a ∧ a < dbase + (11 + l)) ∧
        exec i s = .next (s.withInstance s.active { c with fault := some .overlap }))

/-- 10_state.md R30: an operation that ends leaves the response registers of one row of the table; on a model fault or a refusal they
keep their contents and the state is not final. -/
def Obligations.OutcomeDefinesResponses : Prop :=
  ∀ (i : Instr) (s t : State) (c : Codec), s.codecs[s.active]? = some c → exec i s = .next t →
    ∃ c', t.codecs[s.active]? = some c' ∧
      ((∃ o, OutcomeRow i o ∧ c' = { c with resp := o, phase := .idle } ∧ t.refused = s.refused) ∨
       (c'.fault.isSome = true ∧ c'.resp = c.resp ∧ t.refused = s.refused ∧ t.isFinal = false) ∨
       (t.refused.isSome = true ∧ c'.resp = c.resp ∧ t.isFinal = false))

/-- 60_exceptions.md R181: after an error nothing differs from before the operation but STATUS, the other response registers, now ⊥,
and the phase, now IDLE. -/
def Obligations.ErrorsArePrecise : Prop :=
  ∀ (i : Instr) (s t : State) (c c' : Codec) (x : BitVec 3),
    s.codecs[s.active]? = some c → c.isBusy = true → exec i s = .next t →
    t.codecs[s.active]? = some c' → c'.isBusy = false → c'.resp.status = some x → x ≠ 0 →
    (∃ e : ErrorKind, x = e.code) ∧
    t = s.answered c { status := some x }

/-- 20_memory.md R60: run again on what it left, an operation that completed gives the same response registers and leaves memory as
it is. -/
def Obligations.OperationsAreIdempotent : Prop :=
  ∀ (i : Instr) (s t : State) (c c' : Codec),
    s.codecs[s.active]? = some c → c.isBusy = true → Memory.wf s.mem = true → exec i s = .next t →
    t.codecs[s.active]? = some c' → c'.isBusy = false →
    ∃ u, exec i t = .next u ∧ u.codecs = t.codecs ∧ ∀ a, Memory.read u.mem a = Memory.read t.mem a

/-- 20_memory.md R58: the footprint covers every address the operation can touch: from canonical memories that read alike on its read set,
both runs leave the same instances and mark, neither changes a byte outside its write set, and either both leave all of memory as
it was or both leave the same byte at every address of the write set. -/
def Obligations.FootprintCoversAccesses : Prop :=
  ∀ (i : Instr) (s : State) (m : Memory) (c : Codec),
    s.codecs[s.active]? = some c → c.firstUnwritten i = none → Memory.wf s.mem = true →
    Memory.AgreeOn (footprint i c.req).rd s.mem m →
    ∃ t t', exec i s = .next t ∧ exec i { s with mem := m } = .next t' ∧
      t'.codecs = t.codecs ∧ t'.refused = t.refused ∧ Memory.AgreeOutside (footprint i c.req).wr s.mem t.mem ∧
      (Memory.wf m = true →
        Memory.AgreeOutside (footprint i c.req).wr m t'.mem ∧
        ((∀ a, Memory.read t.mem a = Memory.read s.mem a ∧ Memory.read t'.mem a = Memory.read m a) ∨
         Memory.AgreeOn (footprint i c.req).wr t.mem t'.mem))

/-- 10_state.md R20, 20_memory.md R63: operations in flight on distinct buffers: completing them in either order gives the same
instances and the same memory. -/
def Obligations.IndependentOperationsCommute : Prop :=
  ∀ (s tj tjk tk tkj : State) (j k : Nat) (cj ck : Codec) (fj fk : Footprint) (ij ik : Instr),
    s.Inv → j ≠ k → s.codecs[j]? = some cj → s.codecs[k]? = some ck →
    cj.phase = .busy (encode ij) fj → ck.phase = .busy (encode ik) fk →
    exec ij (s.activate j) = .next tj → exec ik (tj.activate k) = .next tjk →
    exec ik (s.activate k) = .next tk → exec ij (tk.activate j) = .next tkj →
    tjk.codecs = tkj.codecs ∧ ∀ a, Memory.read tjk.mem a = Memory.read tkj.mem a

/-! ### The host's register accesses -/

/-- 10_state.md R31: a write of a value that fits stores it in the request register; every other register, every other instance,
memory and the phase are unchanged. So does a write that carries the value of the host's latest read (30_encoding.md R87,
`copyframe`; the form of such a write is the model's: notes/assumptions/12.md). -/
def Obligations.HostWriteStoresValue : Prop :=
  ∀ (s : State) (k x : Nat) (v : HostVal) (c : Codec) (r : Reg) (rest : List HostAction),
    s.HostTurn (.hw k r.num v) rest → s.Carries v x → s.codecs[k]? = some c → r.isRequest = true → r ≠ .cmd →
    x < 2 ^ r.width s.params →
    ∃ q : ReqRegs, step s = .next ((s.taken rest).withInstance k { c with req := q }) ∧
      Codec.read { c with req := q } r = some x ∧
      ∀ r', r' ≠ r → Codec.read { c with req := q } r' = c.read r'

/-- 10_state.md R31: a write to a response or reserved number, or of a value too wide for its register (the widths of R22), is
refused by name and changes nothing but the mark. (A write that carries the value of a latest read where there is none is a
fault by the model's choice: notes/assumptions/12.md.) -/
def Obligations.HostWriteIsRefused : Prop :=
  ∀ (s : State) (k : Nat) (v : HostVal) (c : Codec) (n : RegNum) (rest : List HostAction),
    s.HostTurn (.hw k n v) rest → s.codecs[k]? = some c →
    (∀ x, s.Carries v x →
      ((n = 14 ∨ n = 15 ∨ 16 ≤ n) →
        step s = .next { s.taken rest with refused := some (.hostWriteNotWritable n) }) ∧
      (((n = 0 ∧ 2 ^ 8 ≤ x) ∨
        ((n = 1 ∨ n = 3 ∨ n = 12) ∧ 2 ^ s.params.addrW ≤ x) ∨
        ((n = 2 ∨ n = 4 ∨ n = 13) ∧ 2 ^ s.params.lenW ≤ x) ∨
        ((5 ≤ n ∧ n ≤ 10) ∧ 2 ^ 8 ≤ x) ∨
        (n = 11 ∧ 2 ≤ x)) →
        step s = .next { s.taken rest with refused := some (.valueTooWide n x) })) ∧
    (v = .lastRead → (s.returned = [] ∨ s.returned.head? = some none) → step s = .fault .noValueRead)

/-- 10_state.md R32: a read returns the register's value and changes no register; of a register that holds ⊥ it is
`fault UNWRITTEN`; of a reserved number it is refused. (That a faulting read returns no value is the model's choice:
notes/assumptions/10.md.) -/
def Obligations.HostReadReturnsValue : Prop :=
  ∀ (s : State) (k : Nat) (c : Codec) (n : RegNum) (rest : List HostAction),
    s.HostTurn (.hr k n) rest → s.codecs[k]? = some c →
    (∀ r v, r.num = n → c.read r = some v →
      step s = .next { s.taken rest with returned := some v :: s.returned }) ∧
    (∀ r, r.num = n → c.read r = none →
      step s = .next
        { (s.taken rest).withInstance k { c with fault := some (.unwritten r) } with returned := none :: s.returned }) ∧
    ((n = 14 ∨ n = 15 ∨ 28 ≤ n) →
      step s = .next { s.taken rest with refused := some (.hostReadReserved n) })

/-- 10_state.md R41, 60_exceptions.md R186: while the instance it accesses is busy or faulted, a host register access is held: the
step, whatever it does, is not the host's. -/
def Obligations.HeldAccessWaits : Prop :=
  ∀ (s t : State) (a : HostAction) (rest : List HostAction) (k : Nat) (c : Codec),
    s.program = a :: rest → ((∃ n v, a = .hw k n v) ∨ (∃ n, a = .hr k n)) → s.codecs[k]? = some c →
    (c.isBusy = true ∨ c.fault.isSome = true) → step s = .next t →
    t.program = s.program ∧ t.returned = s.returned ∧ ∃ j, s.turn = some (.codec j)

/-! ### START -/

/-- 30_encoding.md R80: a START whose request registers are all written and whose footprint meets no operation in flight elsewhere
writes CMD and makes the instance busy, with the footprint; nothing else changes. -/
def Obligations.StartPutsOperationInFlight : Prop :=
  ∀ (s : State) (k : Nat) (c : Codec) (i : Instr) (w : HostVal) (rest : List HostAction),
    s.HostTurn (.hw k Reg.cmd.num w) rest → s.Carries w (encode i).toNat → s.codecs[k]? = some c →
    (∀ r ∈ opReads i, c.read r ≠ none) →
    (∀ (j : Nat) (d : Codec) (f : Footprint), j ≠ k → s.codecs[j]? = some d → d.inFlight = some f →
      (footprint i c.req).conflicts f = false) →
    step s = .next ((s.taken rest).withInstance k
      { c with req := { c.req with cmd := some (encode i) }, phase := .busy (encode i) (footprint i c.req) })

/-- 30_encoding.md R80: a START that needs a register holding ⊥ records `fault UNWRITTEN` of the lowest-numbered one; CMD is written
and the operation does not start. -/
def Obligations.StartFaultsOnUnwritten : Prop :=
  ∀ (s : State) (k : Nat) (c : Codec) (i : Instr) (r : Reg) (w : HostVal) (rest : List HostAction),
    s.HostTurn (.hw k Reg.cmd.num w) rest → s.Carries w (encode i).toNat → s.codecs[k]? = some c →
    r ∈ opReads i → c.read r = none → (∀ r' ∈ opReads i, r'.num < r.num → c.read r' ≠ none) →
    step s = .next ((s.taken rest).withInstance k
      { c with req := { c.req with cmd := some (encode i) }, fault := some (.unwritten r) })

/-- 20_memory.md R58: a START whose footprint conflicts with an operation in flight on another instance is `fault RACE` on both: on the
starting instance, which does not become busy, and on every other instance exactly when its operation conflicts. (The model's
choices: an instance that faulted earlier keeps that fault, notes/assumptions/8.md; a fault leaves the phase as it was, so the
operation of a faulted instance still counts as in flight, notes/assumptions/7.md.) -/
def Obligations.StartRaceFaultsBoth : Prop :=
  ∀ (s : State) (k j : Nat) (c d : Codec) (f : Footprint) (i : Instr) (w : HostVal) (rest : List HostAction),
    s.HostTurn (.hw k Reg.cmd.num w) rest → s.Carries w (encode i).toNat → s.codecs[k]? = some c →
    (∀ r ∈ opReads i, c.read r ≠ none) →
    j ≠ k → s.codecs[j]? = some d → d.inFlight = some f → (footprint i c.req).conflicts f = true →
    ∃ t, step s = .next t ∧ t.mem = s.mem ∧
      t.codecs[k]? = some { c with req := { c.req with cmd := some (encode i) }, fault := some .race } ∧
      ∀ (x : Nat) (y : Codec), x ≠ k → s.codecs[x]? = some y →
        t.codecs[x]? = some
          (match y.phase with
           | .idle => y
           | .busy op g =>
             if (footprint i c.req).conflicts g then
               { req := y.req, resp := y.resp, phase := .busy op g, fault := y.fault.or (some .race) }
             else y)

/-! ### The host's memory accesses and RESET -/

/-- 20_memory.md R52, R53: a host memory write that races with nothing sets its byte and leaves every other; a host memory read that
races with nothing returns the byte and leaves memory as it is; neither changes a register. -/
def Obligations.HostMemoryAccess : Prop :=
  ∀ (s : State) (a : Nat) (rest : List HostAction), a < 2 ^ s.params.addrW → Memory.wf s.mem = true →
    (∀ v, s.HostTurn (.mw a v) rest →
      (∀ c ∈ s.codecs, ∀ f, c.inFlight = some f → f.rd.has a = false ∧ f.wr.has a = false) →
      ∃ t, step s = .next t ∧ t.codecs = s.codecs ∧ t.refused = none ∧ Memory.read t.mem a = v ∧
        ∀ b, b ≠ a → Memory.read t.mem b = Memory.read s.mem b) ∧
    (s.HostTurn (.mr a) rest → (∀ c ∈ s.codecs, ∀ f, c.inFlight = some f → f.wr.has a = false) →
      step s = .next { s.taken rest with returned := some (Memory.read s.mem a).toNat :: s.returned })

/-- 20_memory.md R58: a host memory access that conflicts with an operation in flight is `fault RACE`, recorded on that operation's
instance, and on no instance whose operation it does not meet. (The model's choices: the byte a racing write leaves is a free
value, notes/assumptions/9.md; an instance that faulted earlier keeps that fault, notes/assumptions/8.md; a fault leaves the
phase as it was, so the operation of a faulted instance still counts as in flight, notes/assumptions/7.md.) -/
def Obligations.HostMemoryRaceFaults : Prop :=
  ∀ (s t : State) (a k : Nat) (c : Codec) (rest : List HostAction),
    a < 2 ^ s.params.addrW → Memory.wf s.mem = true → s.codecs[k]? = some c → step s = .next t →
    (∀ v, s.HostTurn (.mw a v) rest →
      t.codecs[k]? = some
        (match c.phase with
         | .idle => c
         | .busy op f =>
           if f.rd.has a || f.wr.has a then
             { req := c.req, resp := c.resp, phase := .busy op f, fault := c.fault.or (some .race) }
           else c) ∧
      ∀ b, b ≠ a → Memory.read t.mem b = Memory.read s.mem b) ∧
    (s.HostTurn (.mr a) rest →
      t.codecs[k]? = some
        (match c.phase with
         | .idle => c
         | .busy op f =>
           if f.wr.has a then
             { req := c.req, resp := c.resp, phase := .busy op f, fault := c.fault.or (some .race) }
           else c) ∧
      t.mem = s.mem)

/-- 20_memory.md R53: a host memory access past the top of memory is refused and changes nothing but the mark. (Such an address can
also lie in the illegal footprint of an operation in flight, where R58 names RACE too: that the refusal comes first is the
model's reading, notes/assumptions/17.md, DEDUCED.) -/
def Obligations.HostAddressPastTopIsRefused : Prop :=
  ∀ (s : State) (a : Nat) (rest : List HostAction), 2 ^ s.params.addrW ≤ a →
    (s.HostTurn (.mr a) rest ∨ ∃ v, s.HostTurn (.mw a v) rest) →
    step s = .next { s.taken rest with refused := some .regionRange }

/-- 70_reset_and_hazards.md R201: RESET puts an idle instance into the state of R200 and keeps its fault record; on a busy instance it
is `refuse RESET_BUSY`; memory is not affected. -/
def Obligations.ResetClearsRegisters : Prop :=
  ∀ (s : State) (k : Nat) (c : Codec) (rest : List HostAction),
    s.HostTurn (.reset k) rest → s.codecs[k]? = some c →
    (c.isBusy = true → step s = .next { s.taken rest with refused := some .resetBusy }) ∧
    (c.isBusy = false → ∃ d : Codec, (∀ r, d.read r = none) ∧ d.phase = .idle ∧ d.fault = c.fault ∧
      step s = .next ((s.taken rest).withInstance k d))

/-! ### The whole machine -/

/-- 60_exceptions.md R186: a faulted instance takes no further step: no step changes it but a RESET of it, and its fault record is
never cleared, not even by that. (That the record stays the very fault it was when a later race meets the instance is the
model's choice, notes/assumptions/8.md; that a RESET of a faulted idle instance clears its registers is DEDUCED,
notes/assumptions/15.md.) -/
def Obligations.FaultedInstanceStays : Prop :=
  ∀ (s t : State) (k : Nat) (c : Codec) (f : ModelFault),
    s.codecs[k]? = some c → c.fault = some f → step s = .next t →
    (∃ c', t.codecs[k]? = some c' ∧ c'.fault = some f) ∧
    ((∀ rest, s.program ≠ .reset k :: rest) → t.codecs[k]? = some c)

/-- 60_exceptions.md R187: a step that sets the refused mark changes no register and no memory. (The model's reading,
notes/assumptions/17.md, DEDUCED: it changes no phase either, and a state with the mark set goes no further.) -/
def Obligations.RefusalChangesOnlyTheMark : Prop :=
  (∀ s t : State, step s = .next t → t.refused.isSome = true → t.codecs = s.codecs ∧ t.mem = s.mem) ∧
  (∀ (s : State) (r : Request), s.refused = some r → step s = .refused (.marked r))

/-- 10_state.md R23: a request register changes only by the host's write to it, or START's write of CMD, or a RESET. -/
def Obligations.RequestRegistersAreTheHosts : Prop :=
  ∀ (s t : State) (k : Nat) (c c' : Codec),
    s.codecs[k]? = some c → t.codecs[k]? = some c' → step s = .next t → c'.req ≠ c.req →
    s.turn = some .host ∧ ∃ a rest, s.program = a :: rest ∧ (a = .reset k ∨ ∃ n v, a = .hw k n v ∧ n ≤ 13 ∧
      ∀ r, r.num ≠ n → r.isRequest = true → c'.read r = c.read r)

/-- 10_state.md R24: a response register changes only in the COMPLETE step of its instance, or by a RESET. -/
def Obligations.ResponseRegistersAreTheOperations : Prop :=
  ∀ (s t : State) (k : Nat) (c c' : Codec),
    s.codecs[k]? = some c → t.codecs[k]? = some c' → step s = .next t → c'.resp ≠ c.resp →
    (s.turn = some (.codec k) ∧ c.isBusy = true ∧ c'.isBusy = false) ∨
    (s.turn = some .host ∧ ∃ rest, s.program = .reset k :: rest)

/-- 20_memory.md R63: between START and COMPLETE no byte of the operation's footprint changes, unless a fault is recorded on its
instance. -/
def Obligations.FootprintBytesAreStable : Prop :=
  ∀ (s t : State) (k : Nat) (c c' : Codec) (fp : Footprint) (a : Nat),
    s.Inv → step s = .next t → s.codecs[k]? = some c → c.inFlight = some fp →
    t.codecs[k]? = some c' → c'.inFlight = some fp → c'.fault = none →
    (fp.rd.has a = true ∨ fp.wr.has a = true) → Memory.read t.mem a = Memory.read s.mem a

/-- 30_encoding.md R80, 70_reset_and_hazards.md R216: every COMPLETE eventually happens: within a number of steps bounded by the host
actions and operations left, a run ends in a final state, or has stopped on a refusal or a fault. The bound and the stops rest
on the model's choices: the schedule's fallback (notes/assumptions/5.md), final and stuck states (11.md), a write of a value
never read (12.md), instance numbers that do not exist (13.md), and that a marked state is refused (17.md, DEDUCED). -/
def Obligations.EveryRunEnds : Prop :=
  ∀ (s : State) (n : Nat), s.workLeft < n →
    match Sys2Proof.core.run n s with
    | .next t => t.isFinal = true
    | .fault _ => True
    | .refused _ => True

/-- 00_scope.md R8, 60_exceptions.md R192: `HOST_BINDING` may be any: with another binding the machine does the same, and it keeps
the binding it has. (The form of a binding is the model's choice: notes/assumptions/21.md.) -/
def Obligations.HostBindingMayBeAny : Prop :=
  ∀ (s : State) (b : HostBinding),
    (∀ t, step s = .next t → t.params = s.params ∧ step (s.rebind b) = .next (t.rebind b)) ∧
    (∀ f, step s = .fault f → step (s.rebind b) = .fault f) ∧
    (∀ r, step s = .refused r → step (s.rebind b) = .refused r)

/-! ### Caller memory -/

/-- The model's canonical form (notes/assumptions/3.md): memories that read alike are equal data. -/
def Obligations.MemoryFormIsCanonical : Prop :=
  ∀ m m' : Memory, Memory.wf m = true → Memory.wf m' = true → (∀ a, Memory.read m a = Memory.read m' a) → m = m'
end

