-- ==== Sys2Proof/Laws/Memory.lean ====
section
/-! SUPPORT. Caller memory: a read after a write (20_memory.md R52), and the canonical form, which every memory
operation keeps and which makes memories that read alike equal. -/
namespace Sys2Proof.Machine

theorem Memory.read_cell_append (a : Nat) (v : Byte) (m : Memory) (x : Nat) (absent : v = Config.unlistedByte → x = a →
    Memory.read m x = Config.unlistedByte) :
    Memory.read (Memory.cell a v ++ m) x = if x = a then v else Memory.read m x := by
  unfold Memory.cell
  by_cases hv : v = Config.unlistedByte
  · rw [if_pos hv]
    by_cases hx : x = a
    · rw [if_pos hx, hv, ← absent hv hx]; rfl
    · rw [if_neg hx]; rfl
  · rw [if_neg hv]; rfl

/-- In a list whose addresses start at `lo`, an address below `lo` is unlisted. -/
theorem Memory.read_below {lo : Nat} {m : Memory} (h : Memory.wfFrom lo m = true) {a : Nat} (ha : a < lo) :
    Memory.read m a = Config.unlistedByte := by
  induction m generalizing lo with
  | nil => rfl
  | cons cell rest ih =>
    obtain ⟨b, v⟩ := cell
    simp only [Memory.wfFrom, Bool.and_eq_true, decide_eq_true_eq] at h
    rw [Memory.read, if_neg (by omega)]
    exact ih h.2 (by omega)

theorem Memory.wfFrom_mono {lo lo' : Nat} (hl : lo' ≤ lo) {m : Memory} (h : Memory.wfFrom lo m = true) :
    Memory.wfFrom lo' m = true := by
  cases m with
  | nil => rfl
  | cons cell rest =>
    obtain ⟨b, v⟩ := cell
    simp only [Memory.wfFrom, Bool.and_eq_true, decide_eq_true_eq] at h ⊢
    exact ⟨⟨by omega, h.1.2⟩, h.2⟩

/-- A write sets its byte and leaves every other (20_memory.md R52). -/
theorem Memory.read_write_from {lo : Nat} {m : Memory} (h : Memory.wfFrom lo m = true) (a : Nat) (v : Byte) (x : Nat) :
    Memory.read (Memory.write m a v) x = if x = a then v else Memory.read m x := by
  induction m generalizing lo with
  | nil =>
    have := Memory.read_cell_append a v [] x (fun _ _ => rfl)
    simpa [Memory.write] using this
  | cons cell rest ih =>
    obtain ⟨b, w⟩ := cell
    have hr := h
    simp only [Memory.wfFrom, Bool.and_eq_true, decide_eq_true_eq] at hr
    rw [Memory.write]
    by_cases h1 : a < b
    · rw [if_pos h1]
      refine Memory.read_cell_append a v _ x fun _ hx => ?_
      subst hx
      rw [Memory.read, if_neg (by omega)]
      exact Memory.read_below hr.2 (by omega)
    · rw [if_neg h1]
      by_cases h2 : a = b
      · subst h2
        rw [if_pos rfl, Memory.read_cell_append a v rest x fun _ hx => hx ▸ Memory.read_below hr.2 (by omega)]
        by_cases hx : x = a <;> simp [Memory.read, hx]
      · rw [if_neg h2, Memory.read, Memory.read, ih hr.2]
        by_cases hx : x = b
        · subst hx
          rw [if_pos rfl, if_neg (by omega), if_pos rfl]
        · simp [hx]

theorem Memory.wfFrom_cell_append {lo a : Nat} {v : Byte} {m : Memory} (hl : lo ≤ a)
    (h : Memory.wfFrom (a + 1) m = true) : Memory.wfFrom lo (Memory.cell a v ++ m) = true := by
  unfold Memory.cell
  by_cases hv : v = Config.unlistedByte
  · rw [if_pos hv]; exact Memory.wfFrom_mono (by omega) h
  · rw [if_neg hv]; simp [Memory.wfFrom, hl, hv, h]

/-- A write keeps the canonical form. -/
theorem Memory.wfFrom_write {lo : Nat} {m : Memory} (h : Memory.wfFrom lo m = true) {a : Nat} (hl : lo ≤ a) (v : Byte) :
    Memory.wfFrom lo (Memory.write m a v) = true := by
  induction m generalizing lo with
  | nil => simpa [Memory.write] using Memory.wfFrom_cell_append (v := v) (m := []) hl rfl
  | cons cell rest ih =>
    obtain ⟨b, w⟩ := cell
    have hr := h
    simp only [Memory.wfFrom, Bool.and_eq_true, decide_eq_true_eq] at hr
    rw [Memory.write]
    by_cases h1 : a < b
    · rw [if_pos h1]
      refine Memory.wfFrom_cell_append hl ?_
      simp only [Memory.wfFrom, Bool.and_eq_true, decide_eq_true_eq]
      exact ⟨⟨by omega, hr.1.2⟩, hr.2⟩
    · rw [if_neg h1]
      by_cases h2 : a = b
      · rw [if_pos h2]
        exact Memory.wfFrom_cell_append hl (h2 ▸ hr.2)
      · rw [if_neg h2]
        simp only [Memory.wfFrom, Bool.and_eq_true, decide_eq_true_eq]
        exact ⟨hr.1, ih hr.2 (by omega)⟩

theorem Memory.wf_write {m : Memory} (h : Memory.wf m = true) (a : Nat) (v : Byte) :
    Memory.wf (Memory.write m a v) = true := Memory.wfFrom_write h (Nat.zero_le a) v

theorem Memory.read_write {m : Memory} (h : Memory.wf m = true) (a : Nat) (v : Byte) (x : Nat) :
    Memory.read (Memory.write m a v) x = if x = a then v else Memory.read m x := Memory.read_write_from h a v x

theorem Memory.wf_writeBytes {m : Memory} (h : Memory.wf m = true) (base : Nat) (vs : List Byte) :
    Memory.wf (Memory.writeBytes m base vs) = true := by
  induction vs generalizing m base with
  | nil => exact h
  | cons v vs ih => exact ih (Memory.wf_write h base v) (base + 1)

/-- Bytes written in a row: inside the row each reads as written, outside memory is as before. -/
theorem Memory.read_writeBytes {m : Memory} (h : Memory.wf m = true) (base : Nat) (vs : List Byte) (x : Nat) :
    Memory.read (Memory.writeBytes m base vs) x
      = if base ≤ x then vs.getD (x - base) (Memory.read m x) else Memory.read m x := by
  induction vs generalizing m base with
  | nil => simp [Memory.writeBytes]
  | cons v vs ih =>
    rw [Memory.writeBytes, ih (Memory.wf_write h base v), Memory.read_write h]
    by_cases hx : x = base
    · subst hx; simp
    · by_cases h1 : base + 1 ≤ x
      · obtain ⟨d, rfl⟩ : ∃ d, x = base + 1 + d := ⟨x - (base + 1), by omega⟩
        have e1 : base + 1 + d - base = d + 1 := by omega
        have e2 : base + 1 + d - (base + 1) = d := by omega
        rw [if_pos h1, if_neg hx, if_pos (show base ≤ base + 1 + d by omega), e1, e2, List.getD_cons_succ]
      · rw [if_neg h1, if_neg hx, if_neg (by omega)]

theorem Memory.mem_cell {a : Nat} {v : Byte} {cell : Host.Cell} (h : cell ∈ Memory.cell a v) : cell.1 = a := by
  unfold Memory.cell at h
  split at h
  · cases h
  · rw [List.mem_singleton] at h; rw [h]

/-- A write lists no address but its own and those listed before. -/
theorem Memory.mem_write {m : Memory} {a : Nat} {v : Byte} {cell : Host.Cell} (h : cell ∈ Memory.write m a v) :
    cell.1 = a ∨ cell ∈ m := by
  induction m with
  | nil => exact .inl (Memory.mem_cell h)
  | cons c rest ih =>
    obtain ⟨b, w⟩ := c
    rw [Memory.write] at h
    split at h
    · rcases List.mem_append.mp h with h | h
      · exact .inl (Memory.mem_cell h)
      · exact .inr h
    · split at h
      · rcases List.mem_append.mp h with h | h
        · exact .inl (Memory.mem_cell h)
        · exact .inr (List.mem_cons_of_mem _ h)
      · rcases List.mem_cons.mp h with h | h
        · exact .inr (h ▸ List.mem_cons_self)
        · exact (ih h).imp_right (List.mem_cons_of_mem _)

theorem Memory.mem_writeBytes {m : Memory} {base : Nat} {vs : List Byte} {cell : Host.Cell}
    (h : cell ∈ Memory.writeBytes m base vs) : (base ≤ cell.1 ∧ cell.1 < base + vs.length) ∨ cell ∈ m := by
  induction vs generalizing m base with
  | nil => exact .inr h
  | cons v vs ih =>
    rcases ih h with h | h
    · exact .inl ⟨by omega, by simp only [List.length_cons]; omega⟩
    · rcases Memory.mem_write h with h | h
      · exact .inl ⟨by omega, by simp only [List.length_cons]; omega⟩
      · exact .inr h

@[simp] theorem Memory.buf_length (m : Memory) (base n : Nat) : (Memory.buf m base n).length = n := by
  simp [Memory.buf]

/-- A buffer is what memory reads as over its region. -/
theorem Memory.buf_congr {m m' : Memory} {base n : Nat} (h : ∀ i, i < n → Memory.read m' (base + i) = Memory.read m (base + i)) :
    Memory.buf m' base n = Memory.buf m base n := by
  unfold Memory.buf
  exact List.map_congr_left fun i hi => h i (List.mem_range.mp hi)

theorem Memory.buf_append (m : Memory) (base n k : Nat) :
    Memory.buf m base (n + k) = Memory.buf m base n ++ Memory.buf m (base + n) k := by
  simp [Memory.buf, List.range_add, Function.comp_def, Nat.add_assoc]

theorem Memory.buf_zero (m : Memory) (base : Nat) : Memory.buf m base 0 = [] := rfl

theorem Memory.buf_succ (m : Memory) (base n : Nat) :
    Memory.buf m base (n + 1) = Memory.read m base :: Memory.buf m (base + 1) n := by
  rw [Nat.add_comm, Memory.buf_append]; rfl

end Sys2Proof.Machine
end

