-- ==== Sys2Proof/Laws/Region.lean ====
section
/-! SUPPORT. Regions and footprints as sets of addresses (20_memory.md R51, R58): the decision procedures of Machine/Ops.lean
say what the sets say. -/
namespace Sys2Proof.Machine

theorem Region.has_iff (r : Region) (a : Nat) : r.has a = true ↔ r.base ≤ a ∧ a < r.base + r.len := by
  simp [Region.has]

@[simp] theorem Region.empty_has (a : Nat) : Region.empty.has a = false := by
  simp [Region.has, Region.empty]

/-- Two regions meet exactly when some address lies in both. -/
theorem Region.meets_iff (r q : Region) : r.meets q = true ↔ ∃ a, r.has a = true ∧ q.has a = true := by
  simp only [Region.has_iff, Region.meets, decide_eq_true_eq]
  constructor
  · intro h
    exact ⟨max r.base q.base, by omega⟩
  · rintro ⟨a, h⟩
    omega

theorem Region.meets_comm (r q : Region) : r.meets q = q.meets r := by
  simp only [Region.meets, Nat.max_comm, Nat.min_comm]

theorem Region.not_both {r q : Region} (h : r.meets q = false) {a : Nat} (hr : r.has a = true) : q.has a = false := by
  by_contra hq
  have : r.meets q = true := (Region.meets_iff r q).mpr ⟨a, hr, by simpa using hq⟩
  simp [h] at this

theorem Footprint.conflicts_comm (f g : Footprint) : f.conflicts g = g.conflicts f := by
  simp only [Footprint.conflicts, Region.meets_comm f.wr g.wr]
  cases f.wr.meets g.rd <;> cases g.wr.meets g.rd <;> cases g.wr.meets f.wr <;> cases g.wr.meets f.rd <;> rfl

@[simp] theorem totalSize_eq (l : Nat) : totalSize l = 11 + l := by
  simp only [totalSize, hdrLen, crcLen]; omega

@[simp] theorem minFrame_eq : minFrame = 11 := rfl
@[simp] theorem maxFrame_eq : maxFrame = 266 := rfl
@[simp] theorem maxPayload_eq : maxPayload = 255 := rfl

end Sys2Proof.Machine
end

