-- ==== Sys2Proof/Laws/State.lean ====
section
/-! SUPPORT. One lemma per field of the state and per shared update of it, and per field of an instance and update, true
by rfl, so that no later proof unfolds a record update. -/
namespace Sys2Proof.Machine

variable (s : State)

/-! ### `setCodec` -/

@[simp] theorem State.setCodec_params (k : Nat) (c : Codec) :
    (s.setCodec k c).params = s.params := rfl
@[simp] theorem State.setCodec_codecs (k : Nat) (c : Codec) :
    (s.setCodec k c).codecs = s.codecs.set k c := rfl
@[simp] theorem State.setCodec_mem (k : Nat) (c : Codec) :
    (s.setCodec k c).mem = s.mem := rfl
@[simp] theorem State.setCodec_program (k : Nat) (c : Codec) :
    (s.setCodec k c).program = s.program := rfl
@[simp] theorem State.setCodec_returned (k : Nat) (c : Codec) :
    (s.setCodec k c).returned = s.returned := rfl
@[simp] theorem State.setCodec_schedule (k : Nat) (c : Codec) :
    (s.setCodec k c).schedule = s.schedule := rfl
@[simp] theorem State.setCodec_active (k : Nat) (c : Codec) :
    (s.setCodec k c).active = s.active := rfl
@[simp] theorem State.setCodec_refused (k : Nat) (c : Codec) :
    (s.setCodec k c).refused = s.refused := rfl
@[simp] theorem State.setCodec_raceCount (k : Nat) (c : Codec) :
    (s.setCodec k c).raceCount = s.raceCount := rfl

/-! ### `refuse` -/

@[simp] theorem State.refuse_params (r : Request) :
    (s.refuse r).params = s.params := rfl
@[simp] theorem State.refuse_codecs (r : Request) :
    (s.refuse r).codecs = s.codecs := rfl
@[simp] theorem State.refuse_mem (r : Request) :
    (s.refuse r).mem = s.mem := rfl
@[simp] theorem State.refuse_program (r : Request) :
    (s.refuse r).program = s.program := rfl
@[simp] theorem State.refuse_returned (r : Request) :
    (s.refuse r).returned = s.returned := rfl
@[simp] theorem State.refuse_schedule (r : Request) :
    (s.refuse r).schedule = s.schedule := rfl
@[simp] theorem State.refuse_active (r : Request) :
    (s.refuse r).active = s.active := rfl
@[simp] theorem State.refuse_refused (r : Request) :
    (s.refuse r).refused = some r := rfl
@[simp] theorem State.refuse_raceCount (r : Request) :
    (s.refuse r).raceCount = s.raceCount := rfl

/-! ### `recordFault` -/

@[simp] theorem State.recordFault_params (k : Nat) (f : ModelFault) :
    (s.recordFault k f).params = s.params := rfl
@[simp] theorem State.recordFault_codecs (k : Nat) (f : ModelFault) :
    (s.recordFault k f).codecs = s.codecs.modify k (fun c => c.record f) := rfl
@[simp] theorem State.recordFault_mem (k : Nat) (f : ModelFault) :
    (s.recordFault k f).mem = s.mem := rfl
@[simp] theorem State.recordFault_program (k : Nat) (f : ModelFault) :
    (s.recordFault k f).program = s.program := rfl
@[simp] theorem State.recordFault_returned (k : Nat) (f : ModelFault) :
    (s.recordFault k f).returned = s.returned := rfl
@[simp] theorem State.recordFault_schedule (k : Nat) (f : ModelFault) :
    (s.recordFault k f).schedule = s.schedule := rfl
@[simp] theorem State.recordFault_active (k : Nat) (f : ModelFault) :
    (s.recordFault k f).active = s.active := rfl
@[simp] theorem State.recordFault_refused (k : Nat) (f : ModelFault) :
    (s.recordFault k f).refused = s.refused := rfl
@[simp] theorem State.recordFault_raceCount (k : Nat) (f : ModelFault) :
    (s.recordFault k f).raceCount = s.raceCount := rfl

/-! ### `raise` -/

@[simp] theorem State.raise_params (k : Nat) (c : Codec) (e : ErrorKind) :
    (s.raise k c e).params = s.params := rfl
@[simp] theorem State.raise_codecs (k : Nat) (c : Codec) (e : ErrorKind) :
    (s.raise k c e).codecs = s.codecs.set k (c.complete (RespRegs.ofError e)) := rfl
@[simp] theorem State.raise_mem (k : Nat) (c : Codec) (e : ErrorKind) :
    (s.raise k c e).mem = s.mem := rfl
@[simp] theorem State.raise_program (k : Nat) (c : Codec) (e : ErrorKind) :
    (s.raise k c e).program = s.program := rfl
@[simp] theorem State.raise_returned (k : Nat) (c : Codec) (e : ErrorKind) :
    (s.raise k c e).returned = s.returned := rfl
@[simp] theorem State.raise_schedule (k : Nat) (c : Codec) (e : ErrorKind) :
    (s.raise k c e).schedule = s.schedule := rfl
@[simp] theorem State.raise_active (k : Nat) (c : Codec) (e : ErrorKind) :
    (s.raise k c e).active = s.active := rfl
@[simp] theorem State.raise_refused (k : Nat) (c : Codec) (e : ErrorKind) :
    (s.raise k c e).refused = s.refused := rfl
@[simp] theorem State.raise_raceCount (k : Nat) (c : Codec) (e : ErrorKind) :
    (s.raise k c e).raceCount = s.raceCount := rfl

/-! ### `raceAtStart` -/

@[simp] theorem State.raceAtStart_params (k : Nat) (fp : Footprint) :
    (s.raceAtStart k fp).params = s.params := rfl
@[simp] theorem State.raceAtStart_codecs (k : Nat) (fp : Footprint) :
    (s.raceAtStart k fp).codecs = s.codecs.mapIdx (fun j c => if j = k ∨ c.conflictsWith fp then c.record .race else c) := rfl
@[simp] theorem State.raceAtStart_mem (k : Nat) (fp : Footprint) :
    (s.raceAtStart k fp).mem = s.mem := rfl
@[simp] theorem State.raceAtStart_program (k : Nat) (fp : Footprint) :
    (s.raceAtStart k fp).program = s.program := rfl
@[simp] theorem State.raceAtStart_returned (k : Nat) (fp : Footprint) :
    (s.raceAtStart k fp).returned = s.returned := rfl
@[simp] theorem State.raceAtStart_schedule (k : Nat) (fp : Footprint) :
    (s.raceAtStart k fp).schedule = s.schedule := rfl
@[simp] theorem State.raceAtStart_active (k : Nat) (fp : Footprint) :
    (s.raceAtStart k fp).active = s.active := rfl
@[simp] theorem State.raceAtStart_refused (k : Nat) (fp : Footprint) :
    (s.raceAtStart k fp).refused = s.refused := rfl
@[simp] theorem State.raceAtStart_raceCount (k : Nat) (fp : Footprint) :
    (s.raceAtStart k fp).raceCount = s.raceCount := rfl

/-! ### `raceByHost` -/

@[simp] theorem State.raceByHost_params (hit : Footprint → Bool) :
    (s.raceByHost hit).params = s.params := rfl
@[simp] theorem State.raceByHost_codecs (hit : Footprint → Bool) :
    (s.raceByHost hit).codecs = s.codecs.map (fun c => if c.hitBy hit then c.record .race else c) := rfl
@[simp] theorem State.raceByHost_mem (hit : Footprint → Bool) :
    (s.raceByHost hit).mem = s.mem := rfl
@[simp] theorem State.raceByHost_program (hit : Footprint → Bool) :
    (s.raceByHost hit).program = s.program := rfl
@[simp] theorem State.raceByHost_returned (hit : Footprint → Bool) :
    (s.raceByHost hit).returned = s.returned := rfl
@[simp] theorem State.raceByHost_schedule (hit : Footprint → Bool) :
    (s.raceByHost hit).schedule = s.schedule := rfl
@[simp] theorem State.raceByHost_active (hit : Footprint → Bool) :
    (s.raceByHost hit).active = s.active := rfl
@[simp] theorem State.raceByHost_refused (hit : Footprint → Bool) :
    (s.raceByHost hit).refused = s.refused := rfl
@[simp] theorem State.raceByHost_raceCount (hit : Footprint → Bool) :
    (s.raceByHost hit).raceCount = s.raceCount + 1 := rfl

/-! ### `tick` -/

@[simp] theorem State.tick_params :
    (s.tick).params = s.params := rfl
@[simp] theorem State.tick_codecs :
    (s.tick).codecs = s.codecs := rfl
@[simp] theorem State.tick_mem :
    (s.tick).mem = s.mem := rfl
@[simp] theorem State.tick_program :
    (s.tick).program = s.program := rfl
@[simp] theorem State.tick_returned :
    (s.tick).returned = s.returned := rfl
@[simp] theorem State.tick_schedule :
    (s.tick).schedule = s.schedule.tail := rfl
@[simp] theorem State.tick_active :
    (s.tick).active = s.active := rfl
@[simp] theorem State.tick_refused :
    (s.tick).refused = s.refused := rfl
@[simp] theorem State.tick_raceCount :
    (s.tick).raceCount = s.raceCount := rfl

/-! ### `activate` -/

@[simp] theorem State.activate_params (k : Nat) :
    (s.activate k).params = s.params := rfl
@[simp] theorem State.activate_codecs (k : Nat) :
    (s.activate k).codecs = s.codecs := rfl
@[simp] theorem State.activate_mem (k : Nat) :
    (s.activate k).mem = s.mem := rfl
@[simp] theorem State.activate_program (k : Nat) :
    (s.activate k).program = s.program := rfl
@[simp] theorem State.activate_returned (k : Nat) :
    (s.activate k).returned = s.returned := rfl
@[simp] theorem State.activate_schedule (k : Nat) :
    (s.activate k).schedule = s.schedule.tail := rfl
@[simp] theorem State.activate_active (k : Nat) :
    (s.activate k).active = k := rfl
@[simp] theorem State.activate_refused (k : Nat) :
    (s.activate k).refused = s.refused := rfl
@[simp] theorem State.activate_raceCount (k : Nat) :
    (s.activate k).raceCount = s.raceCount := rfl

/-! ### `rebind` -/

@[simp] theorem State.rebind_addrW (b : HostBinding) :
    (s.rebind b).params.addrW = s.params.addrW := rfl
@[simp] theorem State.rebind_lenW (b : HostBinding) :
    (s.rebind b).params.lenW = s.params.lenW := rfl
@[simp] theorem State.rebind_hostBinding (b : HostBinding) :
    (s.rebind b).params.hostBinding = b := rfl
@[simp] theorem State.rebind_codecs (b : HostBinding) :
    (s.rebind b).codecs = s.codecs := rfl
@[simp] theorem State.rebind_mem (b : HostBinding) :
    (s.rebind b).mem = s.mem := rfl
@[simp] theorem State.rebind_program (b : HostBinding) :
    (s.rebind b).program = s.program := rfl
@[simp] theorem State.rebind_returned (b : HostBinding) :
    (s.rebind b).returned = s.returned := rfl
@[simp] theorem State.rebind_schedule (b : HostBinding) :
    (s.rebind b).schedule = s.schedule := rfl
@[simp] theorem State.rebind_active (b : HostBinding) :
    (s.rebind b).active = s.active := rfl
@[simp] theorem State.rebind_refused (b : HostBinding) :
    (s.rebind b).refused = s.refused := rfl
@[simp] theorem State.rebind_raceCount (b : HostBinding) :
    (s.rebind b).raceCount = s.raceCount := rfl

/-- The number a host register write carries is the one the machine writes, once its action is taken from the program. -/
theorem State.hostValue_of_carries {v : HostVal} {x : Nat} (h : s.Carries v x) (rest : List HostAction) :
    (s.taken rest).hostValue v = some x := by
  rcases h with rfl | ⟨rfl, h⟩
  · rfl
  · simp [State.hostValue, State.taken, h]

/-- No width but `ADDR_W` and `LEN_W` depends on the parameters, so none depends on the binding (10_state.md R22). -/
theorem Reg.width_rebind (r : Reg) (b : HostBinding) : r.width (s.rebind b).params = r.width s.params := by
  cases r <;> rfl

/-! ### Instances -/

variable (c : Codec)

@[simp] theorem Codec.record_req (f : ModelFault) : (c.record f).req = c.req := rfl
@[simp] theorem Codec.record_resp (f : ModelFault) : (c.record f).resp = c.resp := rfl
@[simp] theorem Codec.record_phase (f : ModelFault) : (c.record f).phase = c.phase := rfl
@[simp] theorem Codec.record_fault (f : ModelFault) : (c.record f).fault = c.fault.or (some f) := rfl
@[simp] theorem Codec.record_read (f : ModelFault) (r : Reg) : (c.record f).read r = c.read r := by cases r <;> rfl
@[simp] theorem Codec.record_inFlight (f : ModelFault) : (c.record f).inFlight = c.inFlight := rfl
@[simp] theorem Codec.record_isBusy (f : ModelFault) : (c.record f).isBusy = c.isBusy := rfl

/-- A fault already recorded stays: the record is never overwritten (10_state.md R40). -/
theorem Codec.record_of_faulted {f g : ModelFault} (h : c.fault = some g) : c.record f = c := by
  cases c; simp_all [Codec.record]

@[simp] theorem Codec.complete_req (resp : RespRegs) : (c.complete resp).req = c.req := rfl
@[simp] theorem Codec.complete_resp (resp : RespRegs) : (c.complete resp).resp = resp := rfl
@[simp] theorem Codec.complete_phase (resp : RespRegs) : (c.complete resp).phase = .idle := rfl
@[simp] theorem Codec.complete_fault (resp : RespRegs) : (c.complete resp).fault = c.fault := rfl
@[simp] theorem Codec.complete_inFlight (resp : RespRegs) : (c.complete resp).inFlight = none := rfl
@[simp] theorem Codec.complete_isBusy (resp : RespRegs) : (c.complete resp).isBusy = false := rfl

end Sys2Proof.Machine
end

