-- ==== Sys2Proof/Laws/Ops.lean ====
section
/-! SUPPORT. What each shared operation can do, said once: how an operation ends, what the four rules answer on given
operands, and everything `exec` can answer. -/
namespace Sys2Proof.Machine

@[simp] theorem reading_some {α : Type} (r : Reg) (x : α) (rest : α → OpEnd) : reading r (some x) rest = rest x := rfl
@[simp] theorem reading_none {α : Type} (r : Reg) (rest : α → OpEnd) : reading r none rest = .faulted (.unwritten r) := rfl

/-- An operation that ends with results read a value. -/
theorem reading_done {α : Type} {r : Reg} {v : Option α} {rest : α → OpEnd} {resp : RespRegs} {m : Memory}
    (h : reading r v rest = .done resp m) : ∃ x, v = some x ∧ rest x = .done resp m := by
  cases v with
  | none => cases h
  | some x => exact ⟨x, rfl, h⟩

@[simp] theorem Region.legal_iff (p : Params) (r : Region) : r.legal p = true ↔ r.base + r.len ≤ 2 ^ p.addrW := by
  simp [Region.legal]

/-- The frame of 30_encoding.md R70 around a header and a payload has 3 bytes more: its start byte and its CRC. -/
@[simp] theorem frameBytes_length (hdr payload : List Byte) :
    (frameBytes hdr payload).length = hdr.length + payload.length + 3 := by
  simp [frameBytes, crcBytes, Nat.add_assoc]

@[simp] theorem EncodeArgs.header_length (e : EncodeArgs) : e.header.length = 8 := rfl

/-! ### The four rules on given operands -/

/-- CRC16 (40_checksum.md R105). -/
theorem crc16Op_eq {p : Params} {q : ReqRegs} {m : Memory} {base n : Nat} (hb : q.aBase = some base) (hn : q.aLen = some n) :
    crc16Op p q m =
      if base + n ≤ 2 ^ p.addrW then
        .done { status := some statusOk, crc := some (crc16 (Memory.buf m base n)) } m
      else .refused .regionRange := by
  by_cases h : base + n ≤ 2 ^ p.addrW <;> simp [crc16Op, hb, hn, Region.legal, h]

/-- FRAME with too long a payload, whatever the other registers hold (41_encoder.md R121). -/
theorem frameOp_tooLarge {p : Params} {q : ReqRegs} {m : Memory} {n : Nat} (hn : q.iPLen = some n) (h : 255 < n) :
    frameOp p q m = .raised .payloadTooLarge := by
  simp [frameOp, hn, h]

/-- ENCODE with too long a payload, whatever the other registers hold (41_encoder.md R125). -/
theorem encodeOp_tooLarge {p : Params} {q : ReqRegs} {m : Memory} {n : Nat} (hn : q.iPLen = some n) (h : 255 < n) :
    encodeOp p q m = .raised .payloadTooLarge := by
  simp [encodeOp, hn, h]

/-- ENCODE on operands that are all written: its checks in their order, then the frame (41_encoder.md R124). -/
theorem encodeOp_eq {p : Params} {c : Codec} {m : Memory} {e : EncodeArgs} (h : c.HoldsEncode e) :
    encodeOp p c.req m =
      if 255 < e.plen then .raised .payloadTooLarge
      else if ¬ (e.pbase + e.plen ≤ 2 ^ p.addrW ∧ e.dbase + e.cap ≤ 2 ^ p.addrW) then .refused .regionRange
      else if e.cap < 11 + e.plen then .raised .bufferTooSmall
      else if e.payload.meets e.target then .faulted .overlap
      else .done { status := some statusOk, written := some (truncReg p .written (11 + e.plen)) }
        (Memory.writeBytes m e.dbase (frameBytes e.header (Memory.buf m e.pbase e.plen))) := by
  obtain ⟨h1, h2, h3, h4, h5, h6, h7, h8, h9, h10, h11⟩ := h
  simp only [encodeOp, h1, h2, h3, h4, h5, h6, h7, h8, h9, h10, h11, reading_some, Region.legal, maxPayload, totalSize_eq,
    EncodeArgs.payload, EncodeArgs.target, EncodeArgs.header, gt_iff_lt, Bool.or_eq_true, Bool.not_eq_true',
    decide_eq_false_iff_not, ← not_and_or]
  split_ifs <;> simp_all

/-- DECODE on operands that are both written: its checks in their order, then the fields (42_decoder.md R150). -/
theorem decodeOp_eq {p : Params} {q : ReqRegs} {m : Memory} {base n : Nat} (hb : q.aBase = some base) (hn : q.aLen = some n) :
    decodeOp p q m =
      if ¬ base + n ≤ 2 ^ p.addrW then .refused .regionRange
      else if n < 11 then .raised .bufferTooSmall
      else if Memory.read m base ≠ 0x7E then .raised .badStartByte
      else if n < 11 + (Memory.read m (base + 8)).toNat then .raised .badLength
      else if crc16 (Memory.buf m (base + 1) (8 + (Memory.read m (base + 8)).toNat))
          ≠ receivedCrc m base (Memory.read m (base + 8)).toNat then .raised .badCrc
      else .done (decodedRegs p m base (Memory.read m (base + 8)).toNat) m := by
  simp only [decodeOp, hb, hn, reading_some, Region.legal, startByte, hdrLen, minFrame_eq, totalSize_eq,
    Bool.not_eq_true', decide_eq_false_iff_not]
  split_ifs <;> simp_all

/-! ### COMPLETE -/

/-- The rule of an operation (30_encoding.md R82). -/
def opRule : Instr → Params → ReqRegs → Memory → OpEnd
  | .crc16 => crc16Op
  | .frame => frameOp
  | .encode => encodeOp
  | .decode => decodeOp

theorem exec_eq_runOp (i : Instr) (s : State) : exec i s = s.runOp (opRule i) := by cases i <;> rfl

theorem exec_of_active {s : State} {c : Codec} (i : Instr) (h : s.codecs[s.active]? = some c) :
    exec i s = .next (s.finish s.active c (opRule i s.params c.req s.mem)) := by
  rw [exec_eq_runOp, State.runOp, h]

/-- Everything `exec` can answer: a next state, that of the active instance's operation ended in one of the four ways. -/
theorem exec_next {i : Instr} {s t : State} (h : exec i s = .next t) :
    ∃ c, s.codecs[s.active]? = some c ∧ t = s.finish s.active c (opRule i s.params c.req s.mem) := by
  rw [exec_eq_runOp, State.runOp] at h
  split at h
  · cases h
  · next c hc => exact ⟨c, hc, by cases h; rfl⟩

/-- Only ENCODE changes memory (20_memory.md R60). -/
theorem opRule_done_mem {i : Instr} {p : Params} {q : ReqRegs} {m m' : Memory} {resp : RespRegs} (hi : i ≠ .encode)
    (h : opRule i p q m = .done resp m') : m' = m := by
  cases i with
  | encode => exact absurd rfl hi
  | crc16 =>
    obtain ⟨base, hb, h⟩ := reading_done h
    obtain ⟨n, hn, h⟩ := reading_done h
    split at h
    · cases h
    · cases h; rfl
  | frame =>
    obtain ⟨n, hn, h⟩ := reading_done h
    split at h
    · cases h
    · obtain ⟨_, _, h⟩ := reading_done h
      obtain ⟨_, _, h⟩ := reading_done h
      obtain ⟨_, _, h⟩ := reading_done h
      obtain ⟨_, _, h⟩ := reading_done h
      obtain ⟨_, _, h⟩ := reading_done h
      obtain ⟨_, _, h⟩ := reading_done h
      obtain ⟨_, _, h⟩ := reading_done h
      obtain ⟨_, _, h⟩ := reading_done h
      cases h; rfl
  | decode =>
    have h0 : decodeOp p q m = .done resp m' := h
    obtain ⟨base, hb, h⟩ := reading_done h
    obtain ⟨n, hn, -⟩ := reading_done h
    rw [decodeOp_eq hb hn] at h0
    clear h
    have h := h0
    split at h
    · cases h
    split at h
    · cases h
    split at h
    · cases h
    split at h
    · cases h
    split at h
    · cases h
    · cases h; rfl

/-- An ENCODE that ends with results had all its operands and passed every check, and wrote the frame (41_encoder.md R124). -/
theorem encodeOp_done {p : Params} {c : Codec} {m m' : Memory} {resp : RespRegs}
    (h : encodeOp p c.req m = .done resp m') :
    ∃ e : EncodeArgs, c.HoldsEncode e ∧ e.Passes p ∧
      resp = { status := some statusOk, written := some (truncReg p .written (11 + e.plen)) } ∧
      m' = Memory.writeBytes m e.dbase (frameBytes e.header (Memory.buf m e.pbase e.plen)) := by
  have h0 := h
  obtain ⟨l, hl, h⟩ := reading_done h
  split at h
  · cases h
  obtain ⟨pbase, hp, h⟩ := reading_done h
  obtain ⟨dbase, hd, h⟩ := reading_done h
  obtain ⟨cap, hc, h⟩ := reading_done h
  split at h
  · cases h
  split at h
  · cases h
  split at h
  · cases h
  obtain ⟨ver, hver, h⟩ := reading_done h
  obtain ⟨dst, hdst, h⟩ := reading_done h
  obtain ⟨src, hsrc, h⟩ := reading_done h
  obtain ⟨type, htype, h⟩ := reading_done h
  obtain ⟨cmdId, hcmd, h⟩ := reading_done h
  obtain ⟨seq, hseq, h⟩ := reading_done h
  obtain ⟨last, hlast, h⟩ := reading_done h
  let e : EncodeArgs :=
    { dbase, cap, ver, dst, src, type, cmdId, seq, last, pbase, plen := l }
  have he : c.HoldsEncode e := ⟨hd, hc, hver, hdst, hsrc, htype, hcmd, hseq, hlast, hp, hl⟩
  rw [encodeOp_eq he] at h0
  split at h0
  · cases h0
  split at h0
  · cases h0
  split at h0
  · cases h0
  split at h0
  · cases h0
  next h1 h2 h3 h4 =>
    cases h0
    rw [Decidable.not_not] at h2
    exact ⟨e, he, ⟨by omega, h2.1, h2.2, by omega, by simpa using h4⟩, rfl, rfl⟩

/-! ### The end of an operation -/

section Finish
variable (s : State) (k : Nat) (c : Codec) (o : OpEnd)

@[simp] theorem State.finish_params : (s.finish k c o).params = s.params := by cases o <;> rfl
@[simp] theorem State.finish_program : (s.finish k c o).program = s.program := by cases o <;> rfl
@[simp] theorem State.finish_returned : (s.finish k c o).returned = s.returned := by cases o <;> rfl
@[simp] theorem State.finish_schedule : (s.finish k c o).schedule = s.schedule := by cases o <;> rfl
@[simp] theorem State.finish_active : (s.finish k c o).active = s.active := by cases o <;> rfl
@[simp] theorem State.finish_raceCount : (s.finish k c o).raceCount = s.raceCount := by cases o <;> rfl
@[simp] theorem State.finish_length : (s.finish k c o).codecs.length = s.codecs.length := by
  cases o <;> simp [State.finish]

/-- An operation changes no other instance (60_exceptions.md R193). -/
theorem State.finish_others {j : Nat} (h : j ≠ k) : (s.finish k c o).codecs[j]? = s.codecs[j]? := by
  cases o <;> simp [State.finish, h.symm]

/-- What becomes of the instance itself: completed with the response registers of the outcome, or as it was with the fault
recorded, or as it was. -/
def Codec.ended (c : Codec) : OpEnd → Codec
  | .done resp _ => c.complete resp
  | .raised e => c.complete (RespRegs.ofError e)
  | .faulted f => c.record f
  | .refused _ => c

theorem State.finish_self (h : s.codecs[k]? = some c) : (s.finish k c o).codecs[k]? = some (c.ended o) := by
  obtain ⟨hk, hc⟩ := List.getElem?_eq_some_iff.mp h
  cases o <;> simp [State.finish, Codec.ended, hk, hc]

/-- The memory an end leaves. -/
def endMem (m : Memory) : OpEnd → Memory
  | .done _ m' => m'
  | .raised _ => m
  | .faulted _ => m
  | .refused _ => m

@[simp] theorem State.finish_mem : (s.finish k c o).mem = endMem s.mem o := by cases o <;> rfl

end Finish

end Sys2Proof.Machine
end

