-- ==== Sys2Proof/Laws/PerInstr.lean ====
section
/-! SUPPORT. The statements made per operation: each command byte decodes to the operation it was encoded from
(30_encoding.md R82). -/
namespace Sys2Proof.Laws

/-- The command byte of `i` is the only byte that decodes to it. -/
def CommandRoundTrip.Statement (i : Instr) : Prop := ∀ v : Byte, decode v = .ok i ↔ v = encode i

theorem CommandRoundTrip.crc16 : CommandRoundTrip.Statement .crc16 := by unfold Statement; decide +kernel
theorem CommandRoundTrip.frame : CommandRoundTrip.Statement .frame := by unfold Statement; decide +kernel
theorem CommandRoundTrip.encode : CommandRoundTrip.Statement .encode := by unfold Statement; decide +kernel
theorem CommandRoundTrip.decode : CommandRoundTrip.Statement .decode := by unfold Statement; decide +kernel

end Sys2Proof.Laws
end

