-- ==== Sys2Proof/Laws/Step.lean ====
section
/-! SUPPORT. What a step can do, said once: which agent may move, and everything a step of each agent can answer. -/
namespace Sys2Proof.Machine

/-! ### Whose turn it is -/

theorem State.mem_agents (s : State) (a : Agent) (h : s.enabled a = true) : a ∈ s.agents := by
  cases a with
  | host => exact List.mem_cons_self
  | codec k =>
    refine List.mem_cons_of_mem _ (List.mem_map.mpr ⟨k, List.mem_range.mpr ?_, rfl⟩)
    by_contra hk
    simp [State.enabled, List.getElem?_eq_none (Nat.le_of_not_lt hk)] at h

/-- Only an agent that can move is given the turn. -/
theorem State.turn_enabled {s : State} {a : Agent} (h : s.turn = some a) : s.enabled a = true := by
  unfold State.turn at h
  split at h
  · split at h
    · next he => cases h; exact he
    · exact List.find?_some h
  · exact List.find?_some h

/-- The turn is given to nobody only when no agent can move. -/
theorem State.turn_none {s : State} (h : s.turn = none) (a : Agent) : s.enabled a = false := by
  have key : s.agents.find? s.enabled = none → s.enabled a = false := fun hn => by
    by_contra ha
    have ha : s.enabled a = true := by simpa using ha
    exact absurd ha (by simpa using List.find?_eq_none.mp hn a (s.mem_agents a ha))
  unfold State.turn at h
  split at h
  · split at h
    · cases h
    · exact key h
  · exact key h

/-- The agent the schedule asks for has the turn if it can move. -/
theorem State.turn_of_schedule {s : State} {a : Agent} {rest : List Agent} (hs : s.schedule = a :: rest)
    (ha : s.enabled a = true) : s.turn = some a := by simp [State.turn, hs, ha]

theorem State.enabled_host {s : State} (h : s.enabled .host = true) :
    ∃ a rest, s.program = a :: rest ∧ s.holds a = false := by
  simp only [State.enabled] at h
  split at h
  · cases h
  · next a rest hp => exact ⟨a, rest, hp, by simpa using h⟩

theorem State.enabled_codec {s : State} {k : Nat} (h : s.enabled (.codec k) = true) :
    ∃ c op fp, s.codecs[k]? = some c ∧ c.phase = .busy op fp ∧ c.fault = none := by
  simp only [State.enabled] at h
  split at h
  · cases h
  · next c hc =>
    simp only [Codec.canComplete, Codec.isBusy, Bool.and_eq_true, Option.isNone_iff_eq_none] at h
    cases hp : c.phase with
    | idle => simp [hp] at h
    | busy op fp => exact ⟨c, op, fp, hc, hp, h.2⟩

theorem State.fetch_busy {s : State} {k : Nat} {c : Codec} {op : Byte} {fp : Footprint} (hc : s.codecs[k]? = some c)
    (hp : c.phase = .busy op fp) : s.fetch k = some (decode op) := by simp [State.fetch, hc, hp]

/-! ### One step -/

/-- Everything a step that goes on can be: the host's next action, which is not held; an instance's COMPLETE; a command
that is no operation; or a final state staying as it is. -/
theorem step_next {s t : State} (h : step s = .next t) :
    s.refused = none ∧
    ((∃ a rest, s.turn = some .host ∧ s.program = a :: rest ∧ s.holds a = false ∧
        State.hostAct { s.tick with program := rest } a = .next t) ∨
     (∃ k c op fp, s.turn = some (.codec k) ∧ s.codecs[k]? = some c ∧ c.phase = .busy op fp ∧ c.fault = none ∧
        ((∃ i, decode op = .ok i ∧ exec i (s.activate k) = .next t) ∨
         (∃ v, decode op = .error (.reservedOp v) ∧ t = s.refuse (.reservedOp v)))) ∨
     (s.turn = none ∧ s.isFinal = true ∧ t = s)) := by
  unfold step at h
  split at h
  · cases h
  · next hr =>
    refine ⟨hr, ?_⟩
    split at h
    · next ht =>
      obtain ⟨a, rest, hp, hh⟩ := State.enabled_host (State.turn_enabled ht)
      refine .inl ⟨a, rest, ht, hp, hh, ?_⟩
      simpa [State.hostStep, hp] using h
    · next k ht =>
      obtain ⟨c, op, fp, hc, hp, hf⟩ := State.enabled_codec (State.turn_enabled ht)
      refine .inr (.inl ⟨k, c, op, fp, ht, hc, hp, hf, ?_⟩)
      rw [State.fetch_busy hc hp] at h
      cases hd : decode op with
      | ok i => rw [hd] at h; exact .inl ⟨i, rfl, h⟩
      | error e =>
        cases e with
        | reservedOp v => rw [hd] at h; cases h; exact .inr ⟨v, rfl, rfl⟩
    · next ht =>
      split at h
      · next hfin => cases h; exact .inr (.inr ⟨ht, hfin, rfl⟩)
      · cases h

/-- The decoder's answer on each byte (30_encoding.md R82, R83). -/
theorem decode_ok_iff (v : Byte) (i : Instr) : decode v = .ok i ↔ v = encode i := by
  revert v; cases i <;> decide +kernel

/-! ### The host's actions -/

/-- Everything a host action that goes on can be (30_encoding.md R86). -/
theorem hostAct_next {s t : State} {a : HostAction} (h : State.hostAct s a = .next t) :
    (∃ k n v c x, a = .hw k n v ∧ s.codecs[k]? = some c ∧ s.hostValue v = some x ∧ t = s.hostWrite k c n x) ∨
    (∃ k n c, a = .hr k n ∧ s.codecs[k]? = some c ∧ t = s.hostRead k c n) ∨
    (∃ x v, a = .mw x v ∧ t = s.hostMemWrite x v) ∨
    (∃ x, a = .mr x ∧ t = s.hostMemRead x) ∨
    (∃ k c, a = .reset k ∧ s.codecs[k]? = some c ∧ t = s.hostReset k c) := by
  cases a with
  | hw k n v =>
    simp only [State.hostAct, State.onInstance] at h
    split at h
    · cases h
    · next c hc =>
      split at h
      · cases h
      · next x hx => cases h; exact .inl ⟨k, n, v, c, x, rfl, hc, hx, rfl⟩
  | hr k n =>
    simp only [State.hostAct, State.onInstance] at h
    split at h
    · cases h
    · next c hc => cases h; exact .inr (.inl ⟨k, n, c, rfl, hc, rfl⟩)
  | mw x v => cases h; exact .inr (.inr (.inl ⟨x, v, rfl, rfl⟩))
  | mr x => cases h; exact .inr (.inr (.inr (.inl ⟨x, rfl, rfl⟩)))
  | reset k =>
    simp only [State.hostAct, State.onInstance] at h
    split at h
    · cases h
    · next c hc => cases h; exact .inr (.inr (.inr (.inr ⟨k, c, rfl, hc, rfl⟩)))

/-- Everything START can do (30_encoding.md R80): refuse a reserved code, fault on the lowest register without a value, fault
on a conflicting footprint, or put the operation in flight. -/
theorem start_cases (s : State) (k : Nat) (c : Codec) (op : Byte) :
    (∃ v, decode op = .error (.reservedOp v) ∧ s.start k c op = s.refuse (.reservedOp v)) ∨
    ∃ i, decode op = .ok i ∧
      ((∃ r, Codec.firstUnwritten { c with req := { c.req with cmd := some op } } i = some r ∧
          s.start k c op
            = (s.setCodec k { c with req := { c.req with cmd := some op } }).recordFault k (.unwritten r)) ∨
       (Codec.firstUnwritten { c with req := { c.req with cmd := some op } } i = none ∧
          s.conflictsElsewhere k (footprint i c.req) = true ∧
          s.start k c op
            = (s.setCodec k { c with req := { c.req with cmd := some op } }).raceAtStart k (footprint i c.req)) ∨
       (Codec.firstUnwritten { c with req := { c.req with cmd := some op } } i = none ∧
          s.conflictsElsewhere k (footprint i c.req) = false ∧
          s.start k c op
            = s.setCodec k
                { c with req := { c.req with cmd := some op }, phase := .busy op (footprint i c.req) })) := by
  have hfp : ∀ i, footprint i { c.req with cmd := some op } = footprint i c.req := fun i => by cases i <;> rfl
  have hcf : ∀ x fp, (s.setCodec k x).conflictsElsewhere k fp = s.conflictsElsewhere k fp := fun x fp => by
    simp [State.conflictsElsewhere, List.eraseIdx_set_eq]
  unfold State.start
  cases hd : decode op with
  | error e => cases e with | reservedOp v => exact .inl ⟨v, rfl, rfl⟩
  | ok i =>
    refine .inr ⟨i, rfl, ?_⟩
    simp only [hfp, hcf]
    split
    · next r hr => exact .inl ⟨r, hr, rfl⟩
    · next hn =>
      cases hc : s.conflictsElsewhere k (footprint i c.req) with
      | true => exact .inr (.inl ⟨hn, rfl, by simp⟩)
      | false => exact .inr (.inr ⟨hn, rfl, by simp [State.setCodec]⟩)

/-- Everything a host register write can do (10_state.md R31). -/
theorem hostWrite_cases (s : State) (k : Nat) (c : Codec) (n : RegNum) (v : Nat) :
    (s.hostWrite k c n v = s.refuse (.hostWriteNotWritable n)) ∨
    (s.hostWrite k c n v = s.refuse (.valueTooWide n v)) ∨
    (n = 0 ∧ v < 256 ∧ s.hostWrite k c n v = s.start k c (BitVec.ofNat 8 v)) ∨
    ∃ r, r.num = n ∧ r.isRequest = true ∧ r ≠ .cmd ∧ v < 2 ^ r.width s.params ∧
      s.hostWrite k c n v = s.setCodec k { c with req := c.req.write s.params r v } := by
  unfold State.hostWrite
  cases hn : Reg.ofNum n with
  | none => exact .inl rfl
  | some r =>
    have hnum : r.num = n := by simpa using List.find?_some hn
    cases hr : r.isRequest with
    | false => exact .inl (by simp [hr])
    | true =>
      by_cases hw : 2 ^ r.width s.params ≤ v
      · exact .inr (.inl (by simp [hr, hw]))
      · by_cases hc : r = .cmd
        · subst hc
          refine .inr (.inr (.inl ⟨hnum.symm, ?_, by simp [hr, hw]⟩))
          simpa [Reg.width] using hw
        · exact .inr (.inr (.inr ⟨r, hnum, hr, hc, by omega, by simp [hr, hw, hc]⟩))

end Sys2Proof.Machine
end

