-- ==== Sys2Proof/Machine/Assembler.lean ====
section
/-! DEFINITION. The text form of host programs (30_encoding.md R86, R87): one action or pseudo-instruction a line, numbers
decimal or `0x` hexadecimal, `;` starts a comment, and a prefix `iK:` names the codec instance (0 without it). Words are
separated by blanks, tabs and commas (notes/assumptions/19.md). A line that is none of these forms is rejected. -/
namespace Sys2Proof.Machine

/-- The value of a decimal digit. -/
def decDigit (c : Char) : Option Nat :=
  if 48 ≤ c.toNat ∧ c.toNat ≤ 57 then some (c.toNat - 48) else none

/-- The value of a hexadecimal digit, capital or small. -/
def hexDigit (c : Char) : Option Nat :=
  if 65 ≤ c.toNat ∧ c.toNat ≤ 70 then some (c.toNat - 55)
  else if 97 ≤ c.toNat ∧ c.toNat ≤ 102 then some (c.toNat - 87)
  else decDigit c

/-- The number the digits spell in the base, most significant first, after the value `acc`. -/
def readDigits (digit : Char → Option Nat) (base : Nat) : Nat → List Char → Option Nat
  | acc, [] => some acc
  | acc, c :: cs =>
    match digit c with
    | none => none
    | some d => readDigits digit base (acc * base + d) cs

/-- A number: decimal, or hexadecimal with a `0x` prefix (R86); at least one digit. -/
def readNumber : List Char → Option Nat
  | [] => none
  | '0' :: 'x' :: c :: cs => readDigits hexDigit 16 0 (c :: cs)
  | c :: cs => readDigits decDigit 10 0 (c :: cs)

/-- A register: its name (10_state.md R22), or its number. -/
def readReg (w : List Char) : Option RegNum :=
  match Reg.all.find? (fun r => r.name.toList == w) with
  | some r => some r.num
  | none =>
    match readNumber w with
    | some n => if n < 32 then some (BitVec.ofNat 5 n) else none
    | none => none

/-- A byte. -/
def readByte (w : List Char) : Option Byte :=
  match readNumber w with
  | some n => if n < 256 then some (BitVec.ofNat 8 n) else none
  | none => none

/-- The operation a mnemonic names (30_encoding.md R82). -/
def readMnemonic (w : List Char) : Option Instr :=
  [Instr.crc16, .frame, .encode, .decode].find? (fun i => i.mnemonic.toList == w)

/-- Whether the character separates words. -/
def isSeparator (c : Char) : Bool := c == ' ' || c == ',' || c == '\t'

/-- The words of a line before its comment; `word` is the word read so far, backwards. -/
def readWords (word : List Char) : List Char → List (List Char)
  | [] => if word.isEmpty then [] else [word.reverse]
  | c :: cs =>
    if c == ';' then (if word.isEmpty then [] else [word.reverse])
    else if isSeparator c then
      (if word.isEmpty then readWords [] cs else word.reverse :: readWords [] cs)
    else readWords (c :: word) cs

/-- The instance a prefix word `iK:` names (R86). -/
def readPrefix : List Char → Option Nat
  | 'i' :: rest => if rest.getLast? = some ':' then readNumber rest.dropLast else none
  | _ => none

/-- The host actions of the words of a line, addressed to instance `k` (R86, R87). -/
def readAction (k : Nat) : List (List Char) → Option (List HostAction)
  | [] => some []
  | op :: args =>
    match String.ofList op, args with
    | "hw", [r, v] =>
      match readReg r, readNumber v with
      | some n, some x => some [.hw k n (.lit x)]
      | _, _ => none
    | "hr", [r] => (readReg r).map (fun n => [.hr k n])
    | "mw", [a, b] =>
      match readNumber a, readByte b with
      | some x, some v => some [.mw x v]
      | _, _ => none
    | "mr", [a] => (readNumber a).map (fun x => [.mr x])
    | "cmd", [m] => (readMnemonic m).map (fun i => [cmdAction k i])
    | "reset", [] => some [.reset k]
    | "crc16", [b, n] =>
      match readNumber b, readNumber n with
      | some x, some y => some ((Pseudo.crc16 x y).expand k)
      | _, _ => none
    | "encode", [b, n] =>
      match readNumber b, readNumber n with
      | some x, some y => some ((Pseudo.encode x y).expand k)
      | _, _ => none
    | "decode", [b, n] =>
      match readNumber b, readNumber n with
      | some x, some y => some ((Pseudo.decode x y).expand k)
      | _, _ => none
    | "frame", words =>
      match words.mapM readNumber with
      | some [ver, dst, src, type, cmdId, seq, last, pbase, plen] =>
        some ((Pseudo.frame { ver, dst, src, type, cmdId, seq, last, pbase, plen }).expand k)
      | _ => none
    | "wait", [] => some (Pseudo.wait.expand k)
    | "copyframe", [] => some (Pseudo.copyframe.expand k)
    | _, _ => none

/-- The host actions of one line (R86, R87): none for a blank line or a comment. -/
def readLine (line : List Char) : Option (List HostAction) :=
  match readWords [] line with
  | [] => some []
  | w :: ws =>
    match readPrefix w with
    | some k => readAction k ws
    | none => readAction 0 (w :: ws)

/-- The host program of a text, one line after the other. -/
def assemble (lines : List (List Char)) : Option (List HostAction) :=
  (lines.mapM readLine).map List.flatten

end Sys2Proof.Machine
end

