-- ==== Sys2Proof/Tests/Slice0.lean ====
section
/-! SUPPORT. The model's own tests. Expected values are those of spec/95_test_vectors.md (their ids stand in the comments) or are
worked out from the rules; the witnesses at the end meet the hypotheses of the statements in Obligations.lean. -/
namespace Sys2Proof.Tests
open Sys2Proof Sys2Proof.Machine

/-! ### Helpers -/

/-- The state after a step that goes on. -/
def after (o : Host.Outcome State Fault Refusal) : Option State :=
  match o with
  | .next t => some t
  | .fault _ => none
  | .refused _ => none

/-- Instance 0 after a step that goes on. -/
def inst0 (o : Host.Outcome State Fault Refusal) : Option Codec := (after o).bind (fun t => t.codecs[0]?)

/-- The bytes at an address after a step that goes on. -/
def bytes (o : Host.Outcome State Fault Refusal) (base n : Nat) : Option (List Byte) :=
  (after o).map (fun t => Memory.buf t.mem base n)

/-- The scenario's memory: the payload at 0x200 (V-ENC) and the frame at 0x300 (V-DEC-1). -/
def mem : Memory :=
  [(0x200, 0xDE), (0x201, 0xAD), (0x202, 0xBE), (0x203, 0xEF),
   (0x300, 0x7E), (0x301, 0x01), (0x302, 0x02), (0x303, 0x01), (0x304, 0x01), (0x305, 0x10), (0x306, 0x2A),
   (0x307, 0x01), (0x308, 0x04), (0x309, 0xDE), (0x30A, 0xAD), (0x30B, 0xBE), (0x30C, 0xEF), (0x30D, 0x0B),
   (0x30E, 0xA4)]

/-- The scenario's request registers: the Frame of V-ENC-1, its destination at 0x400, and the input region `(base, n)`. -/
def req (base n : Nat) : ReqRegs :=
  { cmd := some 0x04, aBase := some base, aLen := some n, dBase := some 0x400, dCap := some 15,
    iVer := some 1, iDst := some 2, iSrc := some 1, iType := some 1, iCmdId := some 16, iSeq := some 42,
    iLast := some 1, iPBase := some 0x200, iPLen := some 4 }

/-- A state of two instances, the first with these request registers and phase, with this program and schedule. -/
def st (q : ReqRegs) (phase : Phase) (program : List HostAction) (schedule : List Agent) : State :=
  { State.launch { addrW := 16, lenW := 16, hostBinding := [] } 2 mem program schedule with
    codecs := [{ req := q, phase := phase }, {}] }

/-- The scenario with both operand sets written and nobody's turn yet. -/
def idle : State := st (req 0x300 15) .idle [] []

/-- A decode of the scenario's frame in flight on instance 0. -/
def decoding (program : List HostAction) (schedule : List Agent) : State :=
  st (req 0x300 15) (.busy 0x04 (footprint .decode (req 0x300 15))) program schedule

/-! ### Well-formedness -/

theorem test_wf_params : Params.wf { addrW := 1, lenW := 9, hostBinding := [] } = true := by decide
theorem test_wf_params_addr : Params.wf { addrW := 0, lenW := 9, hostBinding := [] } = false := by decide
theorem test_wf_params_len : Params.wf { addrW := 16, lenW := 8, hostBinding := [] } = false := by decide
theorem test_wf_hw_instance : HostAction.wf 2 (.hw 2 1 (.lit 0)) = false := by decide
theorem test_wf_hr_instance : HostAction.wf 2 (.hr 2 16) = false := by decide
theorem test_wf_reset_instance : HostAction.wf 2 (.reset 2) = false := by decide
theorem test_wf_program : programWf 1 false (Pseudo.copyframe.expand 0) = true := by decide
theorem test_wf_program_unread : programWf 1 false [.hw 0 5 .lastRead] = false := by decide

/-! ### Encodings (30_encoding.md R82, R83; 10_state.md R22) -/

theorem test_decode_crc16 : decode 0b00000001 = .ok .crc16 := by decide
theorem test_decode_frame : decode 0b00000010 = .ok .frame := by decide
theorem test_decode_encode : decode 0b00000011 = .ok .encode := by decide
theorem test_decode_decode : decode 0b00000100 = .ok .decode := by decide
theorem test_decode_reserved : decode 0x00 = .error (.reservedOp 0x00) ∧ decode 0x05 = .error (.reservedOp 0x05)
    ∧ decode 0x81 = .error (.reservedOp 0x81) ∧ decode 0xFF = .error (.reservedOp 0xFF) := by decide
theorem test_table_words : decodeTableWord 8 0x01 = some .crc16 ∧ decodeTableWord 8 0x02 = some .frame
    ∧ decodeTableWord 8 0x03 = some .encode ∧ decodeTableWord 8 0x04 = some .decode
    ∧ decodeTableWord 8 0x05 = none := by decide
theorem test_register_numbers : Reg.ofNum 13 = some .iPLen ∧ Reg.ofNum 16 = some .status ∧ Reg.ofNum 27 = some .fPLen
    ∧ Reg.ofNum 14 = none ∧ Reg.ofNum 31 = none := by decide

/-! ### The text form (30_encoding.md R86, R87) -/

/-- V-MOD-13, V-CRC-OP-4, P1, P3, and a form that is none. -/
theorem test_text : readLine "i0: hw A_LEN, 5".toList = some [.hw 0 2 (.lit 5)]
    ∧ readLine "crc16 0xFFFC, 5 ; refused".toList = some [.hw 0 1 (.lit 0xFFFC), .hw 0 2 (.lit 5), .hw 0 0 (.lit 1)]
    ∧ readLine "mw 0x100, 0x31".toList = some [.mw 0x100 0x31]
    ∧ readLine "i1: wait".toList = some [.hr 1 16]
    ∧ readLine "cmd CRC32".toList = none ∧ readLine "mw 0x100, 256".toList = none := by decide +kernel

/-! ### The CRC (V-CRC-1, 2, 3, 4, 5, 6, 8, 9, 15) -/

theorem test_crc : crc16 [] = 0xFFFF ∧ crc16 [0x00] = 0xE1F0 ∧ crc16 [0xFF] = 0xFF00 ∧ crc16 [0x41] = 0xB915
    ∧ crc16 [0x7E] = 0x7EA9 ∧ crc16 [0x80] = 0x7078 ∧ crc16 [0x00, 0x00] = 0x1D0F := by decide +kernel
theorem test_crc_check : crc16 [0x31, 0x32, 0x33, 0x34, 0x35, 0x36, 0x37, 0x38, 0x39] = 0x29B1 := by decide +kernel
theorem test_crc_scenario : crc16 (Memory.buf mem 0x301 12) = 0x0BA4 := by decide +kernel

/-! ### The operations, one step each -/

/-- The CRC of the scenario's header and payload (V-CRC-15); a region that ends exactly at the top is legal (V-CRC-OP-3). -/
theorem test_crc16 :
    (inst0 (exec .crc16 (st (req 0x301 12) .idle [] []))).map (fun c => c.resp)
      = some { status := some 0, crc := some 0x0BA4 } ∧
    (inst0 (exec .crc16 (st (req 0xFFFC 4) .idle [] []))).map (fun c => c.resp)
      = some { status := some 0, crc := some 0x84C0 } := by decide +kernel
/-- V-CRC-OP-4. -/
theorem test_crc16_region :
    after (exec .crc16 (st (req 0xFFFC 5) .idle [] []))
      = some { st (req 0xFFFC 5) .idle [] [] with refused := some .regionRange } := by decide +kernel

/-- V-FRM-1. -/
theorem test_frame :
    (inst0 (exec .frame idle)).map (fun c => c.resp)
      = some { status := some 0, fVer := some 1, fDst := some 2, fSrc := some 1, fType := some 1, fCmdId := some 0x10,
               fSeq := some 0x2A, fLast := some 1, fPBase := some 0x200, fPLen := some 4 } := by decide +kernel
/-- V-FRM-3 and its neighbour V-FRM-5. -/
theorem test_frame_limit :
    (inst0 (exec .frame (st { req 0 0 with iPLen := some 256 } .idle [] []))).map (fun c => c.resp)
      = some { status := some 5 } ∧
    (inst0 (exec .frame (st { req 0 0 with iPLen := some 255, iPBase := some 0xFFFF } .idle [] []))).map
      (fun c => (c.resp.status, c.resp.fPBase, c.resp.fPLen)) = some (some 0, some 0xFFFF, some 255) := by decide +kernel

/-- V-ENC-1, at 0x400, with the byte after the frame untouched. -/
theorem test_encode :
    (inst0 (exec .encode idle)).map (fun c => c.resp) = some { status := some 0, written := some 15 } ∧
    bytes (exec .encode idle) 0x400 16
      = some [0x7E, 0x01, 0x02, 0x01, 0x01, 0x10, 0x2A, 0x01, 0x04, 0xDE, 0xAD, 0xBE, 0xEF, 0x0B, 0xA4, 0x00] := by
  decide +kernel
/-- V-ENC-6, V-ENC-9 and V-ENC-12: capacity `11 + L − 1`; PayloadTooLarge first; the payload inside the destination. -/
theorem test_encode_errors :
    (inst0 (exec .encode (st { req 0 0 with dCap := some 14 } .idle [] []))).map (fun c => c.resp)
      = some { status := some 1 } ∧
    (inst0 (exec .encode (st { req 0 0 with dCap := some 3, iPLen := some 256 } .idle [] []))).map (fun c => c.resp)
      = some { status := some 5 } ∧
    (inst0 (exec .encode (st { req 0 0 with iPBase := some 0x405 } .idle [] []))).map (fun c => (c.resp, c.fault))
      = some ({}, some .overlap) := by decide +kernel

/-- V-DEC-1 and V-DEC-11 (trailing bytes). -/
theorem test_decode :
    (inst0 (exec .decode idle)).map (fun c => c.resp)
      = some { status := some 0, fVer := some 1, fDst := some 2, fSrc := some 1, fType := some 1, fCmdId := some 0x10,
               fSeq := some 0x2A, fLast := some 1, fPBase := some 0x309, fPLen := some 4 } ∧
    (inst0 (exec .decode (st (req 0x300 18) .idle [] []))).map (fun c => c.resp.fPBase) = some (some 0x309) := by
  decide +kernel
/-- V-DEC-3, V-DEC-10, V-DEC-13 and a buffer that does not begin with 0x7E (V-DEC-8). -/
theorem test_decode_errors :
    (inst0 (exec .decode (st (req 0x300 10) .idle [] []))).map (fun c => c.resp) = some { status := some 1 } ∧
    (inst0 (exec .decode (st (req 0x300 11) .idle [] []))).map (fun c => c.resp) = some { status := some 3 } ∧
    (inst0 (exec .decode { idle with mem := Memory.write mem 0x306 0x2B })).map (fun c => c.resp)
      = some { status := some 4 } ∧
    (inst0 (exec .decode (st (req 0x301 11) .idle [] []))).map (fun c => c.resp) = some { status := some 2 } := by
  decide +kernel

/-! ### The host and the machine, one step each -/

/-- V-MOD-1: CMD stays ⊥. -/
theorem test_reserved_op :
    (after (step (State.launch { addrW := 16, lenW := 16, hostBinding := [] } 2 [] [.hw 0 0 (.lit 0)] []))).map (fun t => (t.codecs, t.refused))
      = some ([{}, {}], some (.reservedOp 0)) := by decide +kernel
/-- V-MOD-3 and V-MOD-5. -/
theorem test_host_read :
    (inst0 (step (State.launch { addrW := 16, lenW := 16, hostBinding := [] } 2 [] [.hr 0 16] []))).map (fun c => c.fault)
      = some (some (.unwritten .status)) ∧
    (after (step (State.launch { addrW := 16, lenW := 16, hostBinding := [] } 2 [] [.hr 0 14] []))).map (fun t => t.refused)
      = some (some (.hostReadReserved 14)) := by decide +kernel
/-- V-MOD-4 and V-FRM-7. -/
theorem test_host_write_refused :
    (after (step (State.launch { addrW := 16, lenW := 16, hostBinding := [] } 2 [] [.hw 0 16 (.lit 0)] []))).map (fun t => t.refused)
      = some (some (.hostWriteNotWritable 16)) ∧
    (after (step (State.launch { addrW := 16, lenW := 16, hostBinding := [] } 2 [] [.hw 0 11 (.lit 2)] []))).map (fun t => t.refused)
      = some (some (.valueTooWide 11 2)) := by decide +kernel
/-- V-CRC-OP-5. -/
theorem test_start_unwritten :
    (inst0 (step (st { aBase := some 0x100 } .idle [.hw 0 0 (.lit 1)] []))).map (fun c => (c.phase, c.req.cmd, c.fault))
      = some (.idle, some 1, some (.unwritten .aLen)) := by decide +kernel
/-- V-MOD-6 and V-MOD-8. -/
theorem test_host_memory_race :
    (inst0 (step (decoding [.mw 0x305 0] []))).map (fun c => c.fault) = some (some .race) ∧
    (inst0 (step (decoding [.mr 0x305] []))).map (fun c => c.fault) = some none := by decide +kernel
/-- V-MOD-10: both instances; V-MOD-9: two reads do not conflict. -/
theorem test_start_race :
    (after (step { decoding [.hw 1 0 (.lit 3)] [] with
        codecs := [(decoding [] []).codecs.headD {}, { req := { req 0x300 15 with dBase := some 0x308 } }] })).map
      (fun t => t.codecs.map (fun c => c.fault)) = some [some .race, some .race] ∧
    (after (step { decoding [.hw 1 0 (.lit 4)] [] with
        codecs := [(decoding [] []).codecs.headD {}, { req := req 0x300 15 }] })).map
      (fun t => t.codecs.map (fun c => (c.isBusy, c.fault))) = some [(true, none), (true, none)] := by decide +kernel
/-- V-MOD-12. -/
theorem test_reset_busy :
    (after (step (decoding [.reset 0] []))).map (fun t => t.refused) = some (some .resetBusy) := by decide +kernel
/-- V-MOD-13: a held write waits while the operation completes. -/
theorem test_hold :
    (after (step (decoding [.hw 0 2 (.lit 5)] [.host]))).map
      (fun t => (t.program, t.codecs.map (fun c => (c.req.aLen, c.resp.status))))
      = some ([.hw 0 2 (.lit 5)], [(some 15, some 0), (none, none)]) := by decide +kernel

/-! ### Witnesses: states and operands that meet the hypotheses of the statements, together

Statements without hypotheses have none here. Where a statement has several clauses, a witness stands for each, at a boundary. -/

theorem next_of {o : Host.Outcome State Fault Refusal} {p : State → Bool} (h : (after o).any p = true) :
    ∃ t, o = .next t ∧ p t = true := by
  cases o with
  | next t => exact ⟨t, rfl, h⟩
  | fault r => cases h
  | refused r => cases h

/-- The scenario's ENCODE operands, with the payload at `pbase`, capacity `cap` and length `plen`. -/
def args (pbase cap plen : Nat) : EncodeArgs :=
  { dbase := 0x400, cap := cap, ver := 1, dst := 2, src := 1, type := 1, cmdId := 16, seq := 42, last := 1,
    pbase := pbase, plen := plen }

/-- Request registers that hold them. -/
def reqOf (e : EncodeArgs) : ReqRegs :=
  { req 0x300 15 with dBase := some e.dbase, dCap := some e.cap, iPBase := some e.pbase, iPLen := some e.plen }

theorem holds_args (pbase cap plen : Nat) (phase : Phase) :
    Codec.HoldsEncode { req := reqOf (args pbase cap plen), phase := phase } (args pbase cap plen) :=
  ⟨rfl, rfl, rfl, rfl, rfl, rfl, rfl, rfl, rfl, rfl, rfl⟩

theorem passes_args : (args 0x200 15 4).Passes { addrW := 16, lenW := 16, hostBinding := [] } :=
  ⟨by decide, by decide, by decide, by decide, by decide⟩

/-- The Frame fields of the scenario with this payload view. -/
def fields (pbase plen : Nat) : FrameFields :=
  { ver := 1, dst := 2, src := 1, type := 1, cmdId := 16, seq := 42, last := 1, pbase := pbase, plen := plen }

theorem holds_input (base n : Nat) (phase : Phase) : Codec.HoldsInput { req := req base n, phase := phase } base n :=
  ⟨rfl, rfl⟩

theorem valid_scenario (n : Nat) (h : 15 ≤ n) : ValidFrame mem 0x300 n 4 :=
  ⟨by decide, by decide, by omega, by decide +kernel⟩

/-- A DECODE of the frame at 0x300 in flight on instance 0 and an ENCODE into 0x400 on instance 1. -/
def pair (program : List HostAction) (schedule : List Agent) : State :=
  { decoding program schedule with
    codecs :=
      [{ req := req 0x300 15, phase := .busy 0x04 (footprint .decode (req 0x300 15)) },
       { req := { req 0 0 with cmd := some 0x03 }, phase := .busy 0x03 (footprint .encode (req 0 0)) }] }

theorem pair_sound (program : List HostAction) (schedule : List Agent) : (pair program schedule).Inv where
  params := (by decide : Params.wf { addrW := 16, lenW := 16, hostBinding := [] } = true)
  instances := (by decide : 1 ≤ 2)
  mem := ⟨(by decide : Memory.wf mem = true), (by decide : ∀ cell ∈ mem, cell.1 < 2 ^ 16)⟩
  fits := by
    intro c hc r v h
    show v < 2 ^ r.width { addrW := 16, lenW := 16, hostBinding := [] }
    rcases List.mem_cons.mp hc with rfl | hc
    · cases r <;> simp [Codec.read, req] at h <;> subst h <;> decide
    · rw [List.mem_singleton] at hc
      subst hc
      cases r <;> simp [Codec.read, req] at h <;> subst h <;> decide
  inFlight := by
    intro c hc op fp h
    rcases List.mem_cons.mp hc with rfl | hc
    · cases h; exact ⟨.decode, by decide, rfl, by decide, rfl⟩
    · rw [List.mem_singleton] at hc
      subst hc
      cases h; exact ⟨.encode, by decide, rfl, by decide, rfl⟩
  legal := by
    intro c hc
    rcases List.mem_cons.mp hc with rfl | hc
    · exact .empty
    · rw [List.mem_singleton] at hc
      subst hc
      exact .empty
  noConflict := by
    intro j k hjk cj ck hj hk f g hf hg
    match j, k, hjk with
    | 0, 1, _ => cases hj; cases hk; cases hf; cases hg; decide
    | 1, 0, _ => cases hj; cases hk; cases hf; cases hg; decide
    | 0, 0, h | 1, 1, h => exact absurd rfl h
    | j + 2, _, _ => cases hj
    | _, k + 2, _ => cases hk

theorem witness_StepKeepsSoundness : ∃ t, (pair [] []).Inv ∧ step (pair [] []) = .next t := by
  obtain ⟨t, h, -⟩ := next_of (o := step (pair [] [])) (p := fun _ => true) (by decide +kernel)
  exact ⟨t, pair_sound [] [], h⟩

/-- It is the host's turn with the action `a` in the scenario. -/
def asks (a : HostAction) : State := st (req 0x300 15) .idle [a] []

theorem witness_ReservedCommandIsRefused :
    (∀ v ∈ ([0x00, 0x05, 0xFF] : List Byte), (asks (.hw 0 0 (.lit v.toNat))).HostTurn (.hw 0 Reg.cmd.num (.lit v.toNat)) [] ∧
      (asks (.hw 0 0 (.lit v.toNat))).Carries (.lit v.toNat) v.toNat ∧ (v = 0x00 ∨ 0x05 ≤ v)) ∧
    idle.codecs[0]? = some { req := req 0x300 15 } :=
  ⟨fun v hv => ⟨⟨rfl, by rfl, rfl⟩, .inl rfl, by revert hv v; decide⟩, rfl⟩

theorem witness_ScheduledAgentMoves :
    (pair [.mr 0] [.codec 1]).schedule = [.codec 1] ∧ (pair [.mr 0] [.codec 1]).enabled (.codec 1) = true ∧
    (pair [.mr 0] [.host]).schedule = [.host] ∧ (pair [.mr 0] [.host]).enabled .host = true ∧
    ∀ a, (pair [.mr 0] [a]).refused = none := ⟨rfl, by decide, rfl, by decide, fun _ => rfl⟩

theorem witness_StepRunsDecodedOperation :
    (pair [.mr 0] [.codec 1]).refused = none ∧ (pair [.mr 0] [.codec 1]).turn = some (.codec 1) ∧
    (pair [.mr 0] [.codec 1]).codecs[1]? =
      some { req := { req 0 0 with cmd := some 0x03 }, phase := .busy 0x03 (footprint .encode (req 0 0)) } ∧
    decode 0x03 = .ok .encode := by decide

theorem witness_CrcDetectsOneChangedByte : (0x2A : Byte) ≠ 0x2B := by decide

theorem witness_Crc16Completes :
    (st (req 0xFFFC 4) .idle [] []).codecs[0]? = some { req := req 0xFFFC 4 } ∧
    Codec.HoldsInput { req := req 0xFFFC 4 } 0xFFFC 4 ∧ 0xFFFC + 4 ≤ 2 ^ (st (req 0xFFFC 4) .idle [] []).params.addrW :=
  ⟨rfl, holds_input _ _ _, by decide⟩

theorem witness_FrameCompletes :
    (st (reqOf (args 0xFFFF 0 255)) .idle [] []).codecs[0]? = some { req := reqOf (args 0xFFFF 0 255) } ∧
    Codec.HoldsFrame { req := reqOf (args 0xFFFF 0 255) } (fields 0xFFFF 255) ∧ (fields 0xFFFF 255).plen ≤ 255 ∧
    (fields 0xFFFF 255).pbase < 2 ^ (st (reqOf (args 0xFFFF 0 255)) .idle [] []).params.addrW :=
  ⟨rfl, ⟨rfl, rfl, rfl, rfl, rfl, rfl, rfl, rfl, rfl⟩, by decide, by decide⟩

theorem witness_FrameRejectsLongPayload :
    (st (reqOf (args 0x200 0 255)) .idle [] []).codecs[0]? = some { req := reqOf (args 0x200 0 255) } ∧
    Codec.HoldsFrame { req := reqOf (args 0x200 0 255) } (fields 0x200 255) ∧ ¬ 255 < (fields 0x200 255).plen ∧
    (st (reqOf (args 0x200 0 256)) .idle [] []).codecs[0]? = some { req := reqOf (args 0x200 0 256) } ∧
    Codec.HoldsFrame { req := reqOf (args 0x200 0 256) } (fields 0x200 256) ∧ 255 < (fields 0x200 256).plen :=
  ⟨rfl, ⟨rfl, rfl, rfl, rfl, rfl, rfl, rfl, rfl, rfl⟩, by decide, rfl, ⟨rfl, rfl, rfl, rfl, rfl, rfl, rfl, rfl, rfl⟩,
    by decide⟩

/-- The scenario with ENCODE's operands written. -/
def encoding (pbase cap plen : Nat) : State := st (reqOf (args pbase cap plen)) .idle [] []

theorem encoding_self (pbase cap plen : Nat) :
    (encoding pbase cap plen).codecs[(encoding pbase cap plen).active]? = some { req := reqOf (args pbase cap plen) } := rfl

theorem witness_EncodeWritesFrame :
    Codec.HoldsEncode { req := reqOf (args 0x200 15 4) } (args 0x200 15 4) ∧
    (args 0x200 15 4).Passes (encoding 0x200 15 4).params ∧ (encoding 0x200 15 4).params.wf = true ∧
    Memory.wf (encoding 0x200 15 4).mem = true :=
  ⟨holds_args _ _ _ _, passes_args, by decide, by decide⟩

theorem witness_EncodeReportsLength :
    Codec.HoldsEncode { req := reqOf (args 0x200 15 4) } (args 0x200 15 4) ∧
    (args 0x200 15 4).Passes (encoding 0x200 15 4).params ∧ (encoding 0x200 15 4).params.wf = true :=
  ⟨holds_args _ _ _ _, passes_args, by decide⟩

theorem witness_EncodeTouchesOnlyItsFrame :
    ∃ t, Memory.wf (encoding 0x200 15 4).mem = true ∧ exec .encode (encoding 0x200 15 4) = .next t ∧
      ∀ e, Codec.HoldsEncode { req := reqOf (args 0x200 15 4) } e → e.target.has 0x40F = false := by
  obtain ⟨t, h, -⟩ := next_of (o := exec .encode (encoding 0x200 15 4)) (p := fun _ => true) (by decide +kernel)
  refine ⟨t, by decide, h, fun e he => ?_⟩
  have h1 : e.dbase = 0x400 := (Option.some.inj he.dbase).symm
  have h2 : e.plen = 4 := (Option.some.inj he.plen).symm
  simp [EncodeArgs.target, Region.has, h1, h2]

theorem witness_EncodeRejectsLongPayload :
    (encoding 0x200 15 256).codecs[0]? = some { req := reqOf (args 0x200 15 256) } ∧
    (reqOf (args 0x200 15 256)).iPLen = some 256 ∧ 255 < 256 := by decide

theorem witness_EncodeRejectsSmallBuffer :
    Codec.HoldsEncode { req := reqOf (args 0x405 14 4) } (args 0x405 14 4) ∧ (args 0x405 14 4).plen ≤ 255 ∧
    (args 0x405 14 4).pbase + 4 ≤ 2 ^ (encoding 0x405 14 4).params.addrW ∧
    (args 0x405 14 4).dbase + 14 ≤ 2 ^ (encoding 0x405 14 4).params.addrW ∧ (args 0x405 14 4).cap < 11 + 4 :=
  ⟨holds_args _ _ _ _, by decide, by decide, by decide, by decide⟩

/-- A capacity that suffices, and one byte less. -/
theorem witness_EncodeFaultsOnOverlap :
    Codec.HoldsEncode { req := reqOf (args 0x40E 15 4) } (args 0x40E 15 4) ∧ (args 0x40E 15 4).plen ≤ 255 ∧
    (args 0x40E 15 4).pbase + 4 ≤ 2 ^ (encoding 0x40E 15 4).params.addrW ∧
    (args 0x40E 15 4).dbase + 15 ≤ 2 ^ (encoding 0x40E 15 4).params.addrW ∧ 11 + 4 ≤ (args 0x40E 15 4).cap ∧
    (args 0x40E 15 4).payload.has 0x40E = true ∧ (args 0x40E 15 4).target.has 0x40E = true ∧
    Codec.HoldsEncode { req := reqOf (args 0x40E 14 4) } (args 0x40E 14 4) ∧ (args 0x40E 14 4).cap < 11 + 4 ∧
    (args 0x40E 14 4).payload.has 0x40E = true ∧ (args 0x40E 14 4).target.has 0x40E = true :=
  ⟨holds_args _ _ _ _, by decide, by decide, by decide, by decide, by decide, by decide, holds_args _ _ _ _, by decide,
    by decide, by decide⟩

theorem witness_EncodeIsDeterministic :
    ∃ t d, Codec.HoldsEncode { req := reqOf (args 0x200 15 4) } (args 0x200 15 4) ∧
      (args 0x200 15 4).Passes (encoding 0x200 15 4).params ∧ Codec.HoldsEncode { req := reqOf (args 0x309 20 4) } (args 0x309 20 4) ∧
      (args 0x309 20 4).Passes (encoding 0x309 20 4).params ∧
      (∀ i, i < 4 → Memory.read mem (0x200 + i) = Memory.read mem (0x309 + i)) ∧
      exec .encode (encoding 0x200 15 4) = .next t ∧ t.codecs[0]? = some d ∧
      ∃ t' d', exec .encode (encoding 0x309 20 4) = .next t' ∧ t'.codecs[0]? = some d' := by
  obtain ⟨t, h, hd⟩ := next_of (o := exec .encode (encoding 0x200 15 4)) (p := fun t => t.codecs[0]?.isSome) (by decide +kernel)
  obtain ⟨t', h', hd'⟩ := next_of (o := exec .encode (encoding 0x309 20 4)) (p := fun t => t.codecs[0]?.isSome) (by decide +kernel)
  obtain ⟨d, hd⟩ := Option.isSome_iff_exists.mp hd
  obtain ⟨d', hd'⟩ := Option.isSome_iff_exists.mp hd'
  exact ⟨t, d, holds_args _ _ _ _, passes_args, holds_args _ _ _ _, ⟨by decide, by decide, by decide, by decide, by decide⟩,
    by decide, h, hd, t', d', h', hd'⟩

theorem witness_IllegalRegionIsRefused :
    Codec.HoldsInput { req := req 0xFFFC 5 } 0xFFFC 5 ∧ 2 ^ (st (req 0xFFFC 5) .idle [] []).params.addrW < 0xFFFC + 5 ∧
    Codec.HoldsEncode { req := reqOf (args 0xFFFD 15 4) } (args 0xFFFD 15 4) ∧ (args 0xFFFD 15 4).plen ≤ 255 ∧
    2 ^ (encoding 0xFFFD 15 4).params.addrW < (args 0xFFFD 15 4).pbase + 4 ∧
    Codec.HoldsEncode { req := reqOf (args 0x200 0xFC01 4) } (args 0x200 0xFC01 4) ∧
    2 ^ (encoding 0x200 0xFC01 4).params.addrW < (args 0x200 0xFC01 4).dbase + 0xFC01 :=
  ⟨holds_input _ _ _, by decide, holds_args _ _ _ _, by decide, by decide, holds_args _ _ _ _, by decide⟩

theorem witness_DecodeAcceptsValidFrame :
    idle.codecs[idle.active]? = some { req := req 0x300 15 } ∧ Codec.HoldsInput { req := req 0x300 15 } 0x300 15 ∧
    0x300 + 15 ≤ 2 ^ idle.params.addrW ∧ ValidFrame idle.mem 0x300 15 4 :=
  ⟨rfl, holds_input _ _ _, by decide, valid_scenario 15 (by omega)⟩

theorem witness_DecodeRejectsSmallBuffer :
    Codec.HoldsInput { req := req 0x300 10 } 0x300 10 ∧ 0x300 + 10 ≤ 2 ^ (st (req 0x300 10) .idle [] []).params.addrW ∧
    10 < 11 := ⟨holds_input _ _ _, by decide, by decide⟩

theorem witness_DecodeRejectsBadStartByte :
    Codec.HoldsInput { req := req 0x301 11 } 0x301 11 ∧ 0x301 + 11 ≤ 2 ^ (st (req 0x301 11) .idle [] []).params.addrW ∧
    11 ≤ 11 ∧ Memory.read mem 0x301 ≠ 0x7E := ⟨holds_input _ _ _, by decide, by decide, by decide⟩

theorem witness_DecodeRejectsBadLength :
    Codec.HoldsInput { req := req 0x300 14 } 0x300 14 ∧ 0x300 + 14 ≤ 2 ^ (st (req 0x300 14) .idle [] []).params.addrW ∧
    11 ≤ 14 ∧ Memory.read mem 0x300 = 0x7E ∧ 14 < 11 + (Memory.read mem (0x300 + 8)).toNat :=
  ⟨holds_input _ _ _, by decide, by decide, by decide, by decide⟩

/-- The scenario's memory with one byte of the frame changed. -/
def tampered : Memory := Memory.write mem 0x306 0x2B

theorem witness_DecodeRejectsBadCrc :
    Codec.HoldsInput { req := req 0x300 15 } 0x300 15 ∧ 0x300 + 15 ≤ 2 ^ idle.params.addrW ∧ 11 + 4 ≤ 15 ∧
    Memory.read tampered 0x300 = 0x7E ∧ (Memory.read tampered (0x300 + 8)).toNat = 4 ∧
    (crc16 (Memory.buf tampered (0x300 + 1) (8 + 4))).toNat
      ≠ (Memory.read tampered (0x300 + 9 + 4)).toNat * 256 + (Memory.read tampered (0x300 + 10 + 4)).toNat :=
  ⟨holds_input _ _ _, by decide, by decide, by decide, by decide, by decide +kernel⟩

theorem witness_DecodeIgnoresTrailingBytes :
    Codec.HoldsInput { req := req 0x300 18 } 0x300 18 ∧
    (∀ a, 0x300 ≤ a → a < 0x300 + 11 + (Memory.read mem (0x300 + 8)).toNat →
      Memory.read (mem ++ [(0x30F, 0x7E)]) a = Memory.read mem a) ∧
    0x300 + 18 ≤ 2 ^ (st (req 0x300 18) .idle [] []).params.addrW ∧ ValidFrame mem 0x300 (11 + 4) 4 ∧ 11 + 4 ≤ 18 := by
  refine ⟨holds_input _ _ _, fun a h1 h2 => ?_, by decide, valid_scenario _ (by omega), by omega⟩
  replace h2 : a < 0x30F := h2
  obtain ⟨i, rfl⟩ : ∃ i, a = 0x300 + i := ⟨a - 0x300, by omega⟩
  have hi : i < 15 := by omega
  clear h1 h2
  revert hi i
  decide

theorem witness_DecodeInvertsEncode :
    ∃ t, Codec.HoldsEncode { req := reqOf (args 0x200 15 4) } (args 0x200 15 4) ∧
      (args 0x200 15 4).Passes (encoding 0x200 15 4).params ∧ Memory.wf mem = true ∧
      exec .encode (encoding 0x200 15 4) = .next t ∧ Codec.HoldsInput { req := req 0x400 18 } 0x400 18 ∧
      11 + (args 0x200 15 4).plen ≤ 18 ∧ 0x400 + 18 ≤ 2 ^ (st (req 0x400 18) .idle [] []).params.addrW ∧
      Memory.AgreeOn (args 0x200 15 4).target t.mem { st (req 0x400 18) .idle [] [] with mem := t.mem }.mem := by
  obtain ⟨t, h, -⟩ := next_of (o := exec .encode (encoding 0x200 15 4)) (p := fun _ => true) (by decide +kernel)
  exact ⟨t, holds_args _ _ _ _, passes_args, by decide, h, holds_input _ _ _, by decide, by decide, fun _ _ => rfl⟩

theorem witness_DecodeDetectsOneChangedByte :
    Codec.HoldsInput { req := req 0x300 15 } 0x300 (11 + 4) ∧ 0x300 + (11 + 4) ≤ 2 ^ idle.params.addrW ∧
    Memory.wf mem = true ∧ ValidFrame mem 0x300 (11 + 4) 4 ∧
    (0x7F : Byte) ≠ Memory.read mem (0x300 + 0) ∧ (0x00 : Byte) ≠ Memory.read mem (0x300 + 1) ∧
    (0x00 : Byte) ≠ Memory.read mem (0x300 + 7) ∧ (0x05 : Byte) ≠ Memory.read mem (0x300 + 8) ∧ 4 < (0x05 : Byte).toNat ∧
    (0x03 : Byte) ≠ Memory.read mem (0x300 + 8) ∧ (0x03 : Byte).toNat < 4 ∧ (0x00 : Byte) ≠ Memory.read mem (0x300 + 9) ∧
    (0x00 : Byte) ≠ Memory.read mem (0x300 + 14) ∧ 14 < 11 + 4 :=
  ⟨holds_input _ _ _, by decide, by decide, valid_scenario _ (by omega), by decide, by decide, by decide, by decide,
    by decide, by decide, by decide, by decide, by decide, by decide⟩

theorem witness_OperationFrame (i : Instr) :
    ∃ t, idle.codecs[idle.active]? = some { req := req 0x300 15 } ∧ exec i idle = .next t := by
  obtain ⟨t, h, -⟩ := next_of (o := exec i idle) (p := fun _ => true) (by cases i <;> decide +kernel)
  exact ⟨t, rfl, h⟩

theorem witness_OperandWithoutValueFaults :
    (∀ i, ∃ r ∈ opReads i, ({} : Codec).read r = none) ∧
    (∀ q ∈ ([{ iPLen := some 256 }, { iPLen := some 255 },
             { iPLen := some 4, iPBase := some 0xFFFD, dBase := some 0, dCap := some 15 },
             { iPLen := some 4, iPBase := some 0xFFFC, dBase := some 0, dCap := some 14 },
             { iPLen := some 4, iPBase := some 14, dBase := some 0, dCap := some 15 },
             { iPLen := some 4, iPBase := some 15, dBase := some 0, dCap := some 15 }] : List ReqRegs),
      (st q .idle [] []).codecs[(st q .idle [] []).active]? = some { req := q } ∧ ({ req := q } : Codec).fault = none ∧
      Reg.iVer ∈ opReads .frame ∧ Reg.iVer ∈ opReads .encode ∧ ({ req := q } : Codec).read .iVer = none) := by
  refine ⟨fun i => by cases i <;> decide, fun q hq => ⟨rfl, rfl, by decide, by decide, ?_⟩⟩
  revert q
  decide

/-- Every kind of end: a result, an error, a fault, a refusal. -/
theorem witness_OutcomeDefinesResponses :
    (∃ t, exec .decode idle = .next t) ∧ (∃ t, exec .encode (encoding 0x200 14 4) = .next t) ∧
    (∃ t, exec .encode (encoding 0x40E 15 4) = .next t) ∧ (∃ t, exec .crc16 (st (req 0xFFFC 5) .idle [] []) = .next t) := by
  refine ⟨?_, ?_, ?_, ?_⟩ <;>
    exact (next_of (p := fun _ => true) (by decide +kernel)).imp fun t h => h.1

theorem witness_ErrorsArePrecise :
    ∃ t c', (decoding [] []).codecs[0]?.map Codec.isBusy = some true ∧
      exec .decode { decoding [] [] with mem := tampered } = .next t ∧ t.codecs[0]? = some c' ∧ c'.isBusy = false ∧
      c'.resp.status = some 4 ∧ (4 : BitVec 3) ≠ 0 := by
  obtain ⟨t, h, hc⟩ := next_of (o := exec .decode { decoding [] [] with mem := tampered })
    (p := fun t => decide (t.codecs[0]?.map (fun c => (c.isBusy, c.resp.status)) = some (false, some (4 : BitVec 3))))
    (by decide +kernel)
  obtain ⟨c', hc', hp⟩ := Option.map_eq_some_iff.mp (of_decide_eq_true hc)
  exact ⟨t, c', by decide, h, hc', congrArg Prod.fst hp, congrArg Prod.snd hp, by decide⟩

theorem witness_OperationsAreIdempotent :
    ∃ t c', (pair [] []).codecs[0]?.map Codec.isBusy = some true ∧ Memory.wf (pair [] []).mem = true ∧
      exec .decode (pair [] []) = .next t ∧ t.codecs[0]? = some c' ∧ c'.isBusy = false := by
  obtain ⟨t, h, hc⟩ := next_of (o := exec .decode (pair [] []))
    (p := fun t => decide (t.codecs[0]?.map Codec.isBusy = some false)) (by decide +kernel)
  obtain ⟨c', hc', hp⟩ := Option.map_eq_some_iff.mp (of_decide_eq_true hc)
  exact ⟨t, c', by decide, by decide, h, hc', hp⟩

/-- The scenario's memory with a byte more, past the end of the frame. -/
def longer : Memory := mem ++ [(0x30F, 0x7E)]

/-- For DECODE, the scenario with a byte changed just past its read set; for ENCODE, a memory that holds only its read
set, and a run that writes. -/
theorem witness_FootprintCoversAccesses :
    idle.codecs[idle.active]? = some { req := req 0x300 15 } ∧
    (∀ i, Codec.firstUnwritten { req := req 0x300 15 } i = none) ∧ Memory.wf idle.mem = true ∧
    (Memory.wf longer = true ∧ Memory.AgreeOn (footprint .decode (req 0x300 15)).rd mem longer) ∧
    (Memory.wf (mem.take 4) = true ∧ Memory.AgreeOn (footprint .encode (req 0x300 15)).rd mem (mem.take 4)) ∧
    ∃ t, exec .encode idle = .next t ∧ decide (Memory.read t.mem 0x409 = 0xDE) = true := by
  refine ⟨rfl, fun i => by cases i <;> decide, by decide, ⟨by decide, fun a ha => ?_⟩, ⟨by decide, fun a ha => ?_⟩,
    next_of (by decide +kernel)⟩
  · have h : 0x300 ≤ a ∧ a < 0x30F := by
      simpa [footprint, req, Region.has, maxFrame, totalSize, hdrLen, maxPayload, crcLen] using ha
    obtain ⟨i, rfl⟩ : ∃ i, a = 0x300 + i := ⟨a - 0x300, by omega⟩
    have hi : i < 15 := by omega
    clear ha h
    revert hi i
    decide
  · have h : 0x200 ≤ a ∧ a < 0x204 := by simpa [footprint, req, Region.has, maxPayload] using ha
    obtain ⟨i, rfl⟩ : ∃ i, a = 0x200 + i := ⟨a - 0x200, by omega⟩
    have hi : i < 4 := by omega
    clear ha h
    revert hi i
    decide

theorem witness_IndependentOperationsCommute :
    ∃ tj tjk tk tkj, (pair [] []).Inv ∧ exec .decode ((pair [] []).activate 0) = .next tj ∧
      exec .encode (tj.activate 1) = .next tjk ∧ exec .encode ((pair [] []).activate 1) = .next tk ∧
      exec .decode (tk.activate 0) = .next tkj := by
  obtain ⟨tj, h1, h2⟩ := next_of (o := exec .decode ((pair [] []).activate 0))
    (p := fun t => (after (exec .encode (t.activate 1))).any (fun _ => true)) (by decide +kernel)
  obtain ⟨tk, h3, h4⟩ := next_of (o := exec .encode ((pair [] []).activate 1))
    (p := fun t => (after (exec .decode (t.activate 0))).any (fun _ => true)) (by decide +kernel)
  obtain ⟨tjk, h2, -⟩ := next_of h2
  obtain ⟨tkj, h4, -⟩ := next_of h4
  exact ⟨tj, tjk, tk, tkj, pair_sound [] [], h1, h2, h3, h4⟩

/-- The host is about to write the value of its latest read, which returned `y`, into `I_VER`. -/
def copying (y : Option Nat) : State := { asks (.hw 0 5 .lastRead) with returned := [y] }

theorem witness_HostWriteStoresValue :
    (asks (.hw 0 2 (.lit 0xFFFF))).HostTurn (.hw 0 Reg.aLen.num (.lit 0xFFFF)) [] ∧
    (asks (.hw 0 2 (.lit 0xFFFF))).Carries (.lit 0xFFFF) 0xFFFF ∧ Reg.aLen.isRequest = true ∧
    Reg.aLen ≠ .cmd ∧ 0xFFFF < 2 ^ Reg.aLen.width (asks (.hw 0 2 (.lit 0xFFFF))).params ∧
    (copying (some 0xFF)).HostTurn (.hw 0 Reg.iVer.num .lastRead) [] ∧ (copying (some 0xFF)).Carries .lastRead 0xFF :=
  ⟨⟨rfl, by decide, rfl⟩, .inl rfl, by decide, by decide, by decide, ⟨rfl, by decide, rfl⟩, .inr ⟨rfl, rfl⟩⟩

theorem witness_HostWriteIsRefused :
    (∀ n ∈ ([14, 15, 16, 31] : List RegNum), (asks (.hw 0 n (.lit 0))).HostTurn (.hw 0 n (.lit 0)) []) ∧
    (∀ nx ∈ ([(0, 256), (1, 65536), (2, 65536), (5, 256), (10, 256), (11, 2), (12, 65536), (13, 65536)] : List (RegNum × Nat)),
      (asks (.hw 0 nx.1 (.lit nx.2))).HostTurn (.hw 0 nx.1 (.lit nx.2)) [] ∧
      (asks (.hw 0 nx.1 (.lit nx.2))).Carries (.lit nx.2) nx.2) ∧
    (copying (some 256)).HostTurn (.hw 0 5 .lastRead) [] ∧ (copying (some 256)).Carries .lastRead 256 ∧
    (copying none).HostTurn (.hw 0 5 .lastRead) [] ∧ (copying none).returned.head? = some none :=
  ⟨fun n _ => ⟨rfl, by rfl, rfl⟩, fun nx _ => ⟨⟨rfl, by rfl, rfl⟩, .inl rfl⟩, ⟨rfl, by decide, rfl⟩, .inr ⟨rfl, rfl⟩,
    ⟨rfl, by decide, rfl⟩, rfl⟩

/-- A write with no value read is a fault of the host's program (notes/assumptions/12.md). -/
theorem test_write_without_read : step (copying none) = .fault .noValueRead := rfl

theorem witness_HostBindingMayBeAny :
    (∃ t, step (pair [] []) = .next t) ∧ step (copying none) = .fault .noValueRead ∧
    step { idle with refused := some .regionRange } = .refused (.marked .regionRange) :=
  ⟨(next_of (p := fun _ => true) (by decide +kernel)).imp fun t h => h.1, rfl, rfl⟩

/-- Two instances' STATUS registers on a bus, the second at two addresses. -/
theorem test_host_binding :
    let b : HostBinding := [{ inst := 0, reg := 16, places := [0x40] }, { inst := 1, reg := 16, places := [0x80, 0x81] }]
    b.read 0x81 = some (.hr 1 16) ∧ b.read 0x41 = none ∧ b.write 0x40 (.lit 1) = some (.hw 0 16 (.lit 1)) := by decide

theorem witness_HostReadReturnsValue :
    (asks (.hr 0 13)).HostTurn (.hr 0 13) [] ∧ Codec.read { req := req 0x300 15 } .iPLen = some 4 ∧
    (asks (.hr 0 16)).HostTurn (.hr 0 16) [] ∧ Codec.read { req := req 0x300 15 } .status = none ∧
    (∀ n ∈ ([14, 15, 28, 31] : List RegNum), (asks (.hr 0 n)).HostTurn (.hr 0 n) []) :=
  ⟨⟨rfl, by decide, rfl⟩, by decide, ⟨rfl, by decide, rfl⟩, by decide, fun n _ => ⟨rfl, by rfl, rfl⟩⟩

theorem witness_HeldAccessWaits :
    ∃ t, (decoding [.hr 0 16] [.host]).program = [.hr 0 16] ∧
      (decoding [.hr 0 16] [.host]).codecs[0]?.map Codec.isBusy = some true ∧ step (decoding [.hr 0 16] [.host]) = .next t := by
  obtain ⟨t, h, -⟩ := next_of (o := step (decoding [.hr 0 16] [.host])) (p := fun _ => true) (by decide +kernel)
  exact ⟨t, rfl, by decide, h⟩

theorem witness_StartPutsOperationInFlight :
    (asks (.hw 0 0 (.lit 4))).HostTurn (.hw 0 Reg.cmd.num (.lit (encode .decode).toNat)) [] ∧
    (asks (.hw 0 0 (.lit 4))).Carries (.lit (encode .decode).toNat) (encode .decode).toNat ∧
    (∀ i, ∀ r ∈ opReads i, Codec.read { req := req 0x300 15 } r ≠ none) ∧
    ∀ (j : Nat) (d : Codec) (f : Footprint), j ≠ 0 → (asks (.hw 0 0 (.lit 4))).codecs[j]? = some d → d.inFlight = some f →
      (footprint .decode (req 0x300 15)).conflicts f = false := by
  refine ⟨⟨rfl, by decide, rfl⟩, .inl rfl, fun i => by cases i <;> decide, fun j d f hj hd hf => ?_⟩
  match j, hj with
  | 1, _ => cases hd; cases hf
  | j + 2, _ => cases hd

theorem witness_StartFaultsOnUnwritten :
    (st { aBase := some 0 } .idle [.hw 0 0 (.lit 1)] []).HostTurn (.hw 0 Reg.cmd.num (.lit (encode .crc16).toNat)) [] ∧
    (st { aBase := some 0 } .idle [.hw 0 0 (.lit 1)] []).Carries (.lit (encode .crc16).toNat) (encode .crc16).toNat ∧
    Reg.aLen ∈ opReads .crc16 ∧ Codec.read { req := { aBase := some 0 } } .aLen = none ∧
    ∀ r' ∈ opReads .crc16, r'.num < Reg.aLen.num → Codec.read { req := { aBase := some 0 } } r' ≠ none :=
  ⟨⟨rfl, by decide, rfl⟩, .inl rfl, by decide, by decide, by decide⟩

/-- Instance 0 decodes the frame at 0x300; instance 1 is asked to encode into 0x30E, its last byte. -/
def racing : State :=
  { decoding [.hw 1 0 (.lit 3)] [] with
    codecs := [{ req := req 0x300 15, phase := .busy 0x04 (footprint .decode (req 0x300 15)) },
               { req := { req 0x300 15 with dBase := some 0x30E } }] }

theorem witness_StartRaceFaultsBoth :
    racing.HostTurn (.hw 1 Reg.cmd.num (.lit (encode .encode).toNat)) [] ∧
    racing.Carries (.lit (encode .encode).toNat) (encode .encode).toNat ∧
    (∀ r ∈ opReads .encode, Codec.read { req := { req 0x300 15 with dBase := some 0x30E } } r ≠ none) ∧
    (footprint .encode { req 0x300 15 with dBase := some 0x30E }).conflicts (footprint .decode (req 0x300 15)) = true :=
  ⟨⟨rfl, by decide, rfl⟩, .inl rfl, by decide, by decide⟩

theorem witness_HostMemoryAccess :
    0xFFFF < 2 ^ idle.params.addrW ∧ Memory.wf mem = true ∧
    (decoding [.mw 0xFFFF 1] []).HostTurn (.mw 0xFFFF 1) [] ∧ (decoding [.mr 0x305] []).HostTurn (.mr 0x305) [] ∧
    ∀ c ∈ (decoding [] []).codecs, ∀ f, c.inFlight = some f →
      f.rd.has 0xFFFF = false ∧ f.wr.has 0xFFFF = false ∧ f.wr.has 0x305 = false := by
  refine ⟨by decide, by decide, ⟨rfl, by decide, rfl⟩, ⟨rfl, by decide, rfl⟩, fun c hc f hf => ?_⟩
  rcases List.mem_cons.mp hc with rfl | hc
  · cases hf; decide
  · rw [List.mem_singleton] at hc; subst hc; cases hf

theorem witness_HostMemoryRaceFaults :
    (∃ t, step (pair [.mw 0x30E 0] []) = .next t) ∧ (pair [.mw 0x30E 0] []).HostTurn (.mw 0x30E 0) [] ∧
    (footprint .decode (req 0x300 15)).rd.has 0x30E = true ∧
    (∃ t, step (pair [.mr 0x400] []) = .next t) ∧ (pair [.mr 0x400] []).HostTurn (.mr 0x400) [] ∧
    (footprint .encode (req 0 0)).wr.has 0x400 = true := by
  refine ⟨?_, ⟨rfl, by decide, rfl⟩, by decide, ?_, ⟨rfl, by decide, rfl⟩, by decide⟩ <;>
    exact (next_of (p := fun _ => true) (by decide +kernel)).imp fun t h => h.1

theorem witness_HostAddressPastTopIsRefused :
    2 ^ (asks (.mr 0x10000)).params.addrW ≤ 0x10000 ∧ (asks (.mr 0x10000)).HostTurn (.mr 0x10000) [] ∧
    (asks (.mw 0x10000 0)).HostTurn (.mw 0x10000 0) [] :=
  ⟨by decide, ⟨rfl, by decide, rfl⟩, ⟨rfl, by decide, rfl⟩⟩

theorem witness_ResetClearsRegisters :
    (decoding [.reset 0] [.host]).HostTurn (.reset 0) [] ∧ (decoding [] []).codecs[0]?.map Codec.isBusy = some true ∧
    (asks (.reset 0)).HostTurn (.reset 0) [] ∧ idle.codecs[0]?.map Codec.isBusy = some false :=
  ⟨⟨rfl, by decide, rfl⟩, by decide, ⟨rfl, by decide, rfl⟩, by decide⟩

/-- Instance 0 faulted, instance 1 busy. -/
def faulted (program : List HostAction) : State :=
  { pair program [] with
    codecs := [{ req := req 0x300 15, fault := some .race },
               { req := { req 0 0 with cmd := some 0x03 }, phase := .busy 0x03 (footprint .encode (req 0 0)) }] }

theorem witness_FaultedInstanceStays :
    (faulted [.reset 0]).codecs[0]?.map (fun c => c.fault) = some (some .race) ∧ (∃ t, step (faulted [.reset 0]) = .next t) ∧
    (∃ t, step (faulted []) = .next t) ∧ ∀ rest, (faulted []).program ≠ .reset 0 :: rest := by
  refine ⟨by decide, ?_, ?_, fun rest h => by cases h⟩ <;>
    exact (next_of (p := fun _ => true) (by decide +kernel)).imp fun t h => h.1

theorem witness_RefusalChangesOnlyTheMark :
    (∃ t, step (asks (.mr 0x10000)) = .next t ∧ t.refused.isSome = true) ∧
    { idle with refused := some .regionRange }.refused = some .regionRange :=
  ⟨next_of (by decide +kernel), rfl⟩

theorem witness_RequestRegistersAreTheHosts :
    ∃ t, step (asks (.hw 0 2 (.lit 5))) = .next t ∧
      decide (t.codecs[0]?.map (fun c => c.req) ≠ (asks (.hw 0 2 (.lit 5))).codecs[0]?.map (fun c => c.req)) = true :=
  next_of (by decide +kernel)

theorem witness_ResponseRegistersAreTheOperations :
    (∃ t, step (pair [] []) = .next t ∧
      decide (t.codecs[0]?.map (fun c => c.resp) ≠ (pair [] []).codecs[0]?.map (fun c => c.resp)) = true) ∧
    (∃ t, step { asks (.reset 0) with codecs := [{ resp := { status := some 0, crc := some 1 } }] } = .next t ∧
      decide (t.codecs[0]?.map (fun c => c.resp) = some ({} : RespRegs)) = true) :=
  ⟨next_of (by decide +kernel), next_of (by decide +kernel)⟩

theorem witness_FootprintBytesAreStable :
    (pair [.mw 0x30F 1] []).Inv ∧ (∃ t, step (pair [.mw 0x30F 1] []) = .next t ∧
      decide (t.codecs[0]?.map (fun c => (c.inFlight, c.fault)) = some (some (footprint .decode (req 0x300 15)), none)) = true) ∧
    (footprint .decode (req 0x300 15)).rd.has 0x30E = true :=
  ⟨pair_sound _ _, next_of (by decide +kernel), by decide⟩

theorem witness_EveryRunEnds : (pair [.mr 0] []).workLeft < 5 := by decide

theorem witness_MemoryForm : Memory.wf mem = true ∧ Memory.wf ([] : Memory) = true := by decide

end Sys2Proof.Tests
end

section
/-! PROOFS. `HOST_BINDING` (00_scope.md R8, 60_exceptions.md R192): no step changes a parameter, and every operation of the
machine commutes with replacing the binding. -/
namespace Sys2Proof.Machine

/-! ### No step changes a parameter (00_scope.md R8) -/

section Params
variable (s : State) (k : Nat) (c : Codec)

@[simp] theorem State.start_params (op : Byte) : (s.start k c op).params = s.params := by
  obtain ⟨v, -, h⟩ | ⟨i, -, ⟨r, -, h⟩ | ⟨-, -, h⟩ | ⟨-, -, h⟩⟩ := start_cases s k c op <;> rw [h] <;> rfl

@[simp] theorem State.hostWrite_params (n : RegNum) (v : Nat) : (s.hostWrite k c n v).params = s.params := by
  obtain h | h | ⟨-, -, h⟩ | ⟨r, -, -, -, -, h⟩ := hostWrite_cases s k c n v <;> rw [h] <;> simp

@[simp] theorem State.hostRead_params (n : RegNum) : (s.hostRead k c n).params = s.params := by
  unfold State.hostRead
  split
  · rfl
  · split <;> rfl

@[simp] theorem State.hostMemWrite_params (a : Nat) (v : Byte) : (s.hostMemWrite a v).params = s.params := by
  unfold State.hostMemWrite
  split_ifs <;> rfl

@[simp] theorem State.hostMemRead_params (a : Nat) : (s.hostMemRead a).params = s.params := by
  unfold State.hostMemRead
  split_ifs <;> rfl

@[simp] theorem State.hostReset_params : (s.hostReset k c).params = s.params := by
  unfold State.hostReset
  split <;> rfl

end Params

theorem State.hostAct_params {s t : State} {a : HostAction} (h : State.hostAct s a = .next t) : t.params = s.params := by
  obtain ⟨k, n, v, c, x, -, -, -, rfl⟩ | ⟨k, n, c, -, -, rfl⟩ | ⟨x, v, -, rfl⟩ | ⟨x, -, rfl⟩ | ⟨k, c, -, -, rfl⟩ :=
    hostAct_next h <;> simp

theorem exec_params {i : Instr} {s t : State} (h : exec i s = .next t) : t.params = s.params := by
  obtain ⟨c, -, rfl⟩ := exec_next h
  simp

theorem step_params {s t : State} (h : step s = .next t) : t.params = s.params := by
  obtain ⟨-, ⟨a, rest, -, -, -, hact⟩ | ⟨k, c, op, fp, -, -, -, -, ⟨i, -, hexec⟩ | ⟨v, -, rfl⟩⟩ | ⟨-, -, rfl⟩⟩ := step_next h
  · simpa using State.hostAct_params hact
  · simpa using exec_params hexec
  · rfl
  · rfl

/-! ### Every shared operation commutes with `rebind` -/

section Rebind
variable (s : State) (b : HostBinding) (k : Nat) (c : Codec)

@[simp] theorem State.setCodec_rebind : (s.rebind b).setCodec k c = (s.setCodec k c).rebind b := rfl
@[simp] theorem State.refuse_rebind (r : Request) : (s.rebind b).refuse r = (s.refuse r).rebind b := rfl
@[simp] theorem State.activate_rebind : (s.rebind b).activate k = (s.activate k).rebind b := rfl
@[simp] theorem State.turn_rebind : (s.rebind b).turn = s.turn := rfl
@[simp] theorem State.fetch_rebind : (s.rebind b).fetch k = s.fetch k := rfl
@[simp] theorem State.isFinal_rebind : (s.rebind b).isFinal = s.isFinal := rfl

/-- A register's width, so what a write truncates to, does not depend on the binding. -/
theorem ReqRegs.write_rebind (q : ReqRegs) (r : Reg) (v : Nat) : q.write (s.rebind b).params r v = q.write s.params r v := by
  cases r <;> rfl

/-- An operation's rule reads `ADDR_W` and `LEN_W` only. -/
theorem opRule_rebind (i : Instr) (q : ReqRegs) (m : Memory) : opRule i (s.rebind b).params q m = opRule i s.params q m := by
  cases i <;> rfl

theorem State.finish_rebind (o : OpEnd) : (s.rebind b).finish k c o = (s.finish k c o).rebind b := by
  cases o <;> rfl

theorem State.start_rebind (op : Byte) : (s.rebind b).start k c op = (s.start k c op).rebind b := by
  unfold State.start
  split
  · rfl
  · dsimp only
    split
    · rfl
    · rw [apply_ite (State.rebind · b)]; rfl

theorem State.hostWrite_rebind (n : RegNum) (v : Nat) : (s.rebind b).hostWrite k c n v = (s.hostWrite k c n v).rebind b := by
  unfold State.hostWrite
  split
  · rfl
  · simp only [Reg.width_rebind, ReqRegs.write_rebind, State.start_rebind, State.setCodec_rebind, State.refuse_rebind]
    split_ifs <;> rfl

theorem State.hostRead_rebind (n : RegNum) : (s.rebind b).hostRead k c n = (s.hostRead k c n).rebind b := by
  unfold State.hostRead
  split
  · rfl
  · split <;> rfl

theorem State.hostMemWrite_rebind (a : Nat) (v : Byte) : (s.rebind b).hostMemWrite a v = (s.hostMemWrite a v).rebind b := by
  simp only [State.hostMemWrite, apply_ite (State.rebind · b)]
  rfl

theorem State.hostMemRead_rebind (a : Nat) : (s.rebind b).hostMemRead a = (s.hostMemRead a).rebind b := by
  simp only [State.hostMemRead, apply_ite (State.rebind · b)]
  rfl

theorem State.hostReset_rebind : (s.rebind b).hostReset k c = (s.hostReset k c).rebind b := by
  simp only [State.hostReset, apply_ite (State.rebind · b)]
  rfl

end Rebind

/-! ### A step commutes with `rebind` -/

/-- An outcome with the binding replaced in the state it goes on with; where it stops, it stops for the same reason. -/
def rebindOutcome (b : HostBinding) : Host.Outcome State Fault Refusal → Host.Outcome State Fault Refusal
  | .next s => .next (s.rebind b)
  | .fault f => .fault f
  | .refused r => .refused r

variable (s : State) (b : HostBinding)

theorem exec_rebind (i : Instr) : exec i (s.rebind b) = rebindOutcome b (exec i s) := by
  simp only [exec_eq_runOp, State.runOp, State.rebind_codecs, State.rebind_active, State.rebind_mem, opRule_rebind,
    State.finish_rebind]
  cases s.codecs[s.active]? <;> rfl

theorem State.hostAct_rebind (a : HostAction) : (s.rebind b).hostAct a = rebindOutcome b (s.hostAct a) := by
  cases a with
  | hw k n v =>
    have hval : (s.rebind b).hostValue v = s.hostValue v := by cases v <;> rfl
    simp only [State.hostAct, State.onInstance, State.rebind_codecs, hval, State.hostWrite_rebind]
    cases s.codecs[k]? with
    | none => rfl
    | some c => cases s.hostValue v <;> rfl
  | hr k n =>
    simp only [State.hostAct, State.onInstance, State.rebind_codecs, State.hostRead_rebind]
    cases s.codecs[k]? <;> rfl
  | mw a v => simp only [State.hostAct, State.hostMemWrite_rebind, rebindOutcome]
  | mr a => simp only [State.hostAct, State.hostMemRead_rebind, rebindOutcome]
  | reset k =>
    simp only [State.hostAct, State.onInstance, State.rebind_codecs, State.hostReset_rebind]
    cases s.codecs[k]? <;> rfl

theorem State.hostStep_rebind : (s.rebind b).hostStep = rebindOutcome b s.hostStep := by
  unfold State.hostStep
  cases hp : s.program with
  | nil => simp only [State.rebind_program, hp]; rfl
  | cons a rest =>
    simp only [State.rebind_program, hp]
    exact State.hostAct_rebind { s with program := rest } b a

theorem step_rebind : step (s.rebind b) = rebindOutcome b (step s) := by
  simp only [step, State.rebind_refused, State.turn_rebind, State.fetch_rebind, State.isFinal_rebind,
    State.activate_rebind, State.refuse_rebind, exec_rebind]
  cases s.refused with
  | some r => rfl
  | none =>
    cases s.turn with
    | none =>
      dsimp only
      rw [apply_ite (rebindOutcome b)]; rfl
    | some a =>
      cases a with
      | host => exact State.hostStep_rebind s.tick b
      | codec k =>
        dsimp only
        split <;> rfl

/-- Settles O59: a step commutes with replacing the binding (`step_rebind`), and keeps the parameters (`step_params`). -/
theorem hostBindingMayBeAny : Obligations.HostBindingMayBeAny := by
  intro s b
  refine ⟨fun t h => ⟨step_params h, ?_⟩, fun f h => ?_, fun r h => ?_⟩ <;> rw [step_rebind, h] <;> rfl

end Sys2Proof.Machine
end

section
/-! PROOFS. An operation that needs a register without a value (00_scope.md R12, R13): it is fault UNWRITTEN of such a
register, or ends in one of the checks FRAME and ENCODE make before they read all their operands (41_encoder.md R120, R124). -/
namespace Sys2Proof.Machine

/-- Some register of the list holds no value. -/
def Codec.Lacks (c : Codec) (rs : List Reg) : Prop := ∃ r ∈ rs, c.read r = none

theorem Codec.lacks_cons {c : Codec} {r : Reg} {rs : List Reg} : c.Lacks (r :: rs) ↔ c.read r = none ∨ c.Lacks rs :=
  List.exists_mem_cons_iff ..

theorem Codec.not_lacks_nil {c : Codec} : ¬ c.Lacks [] := fun ⟨_, h, _⟩ => List.not_mem_nil h

/-- The operands of ENCODE's checks (41_encoder.md R124) are written, and the payload is not too long. -/
structure Codec.HoldsRegions (c : Codec) (l pbase dbase cap : Nat) : Prop where
  plen : c.req.iPLen = some l
  pbase : c.req.iPBase = some pbase
  dbase : c.req.dBase = some dbase
  cap : c.req.dCap = some cap
  short : l ≤ 255

/-- How an operation can end before it has read all its operands: fault UNWRITTEN, or one of the checks of FRAME and ENCODE, in
their order (60_exceptions.md R183). -/
inductive EarlyEnd (i : Instr) (p : Params) (c : Codec) : OpEnd → Prop
  | unwritten {r : Reg} (reads : r ∈ opReads i) (empty : c.read r = none) : EarlyEnd i p c (.faulted (.unwritten r))
  | tooLarge {l : Nat} (op : i = .frame ∨ i = .encode) (plen : c.req.iPLen = some l) (long : 255 < l) :
    EarlyEnd i p c (.raised .payloadTooLarge)
  | illegal {l pbase dbase cap : Nat} (op : i = .encode) (holds : c.HoldsRegions l pbase dbase cap)
    (past : 2 ^ p.addrW < pbase + l ∨ 2 ^ p.addrW < dbase + cap) : EarlyEnd i p c (.refused .regionRange)
  | tooSmall {l pbase dbase cap : Nat} (op : i = .encode) (holds : c.HoldsRegions l pbase dbase cap)
    (inside : ¬ (2 ^ p.addrW < pbase + l ∨ 2 ^ p.addrW < dbase + cap)) (small : cap < 11 + l) :
    EarlyEnd i p c (.raised .bufferTooSmall)
  | overlap {l pbase dbase cap : Nat} (op : i = .encode) (holds : c.HoldsRegions l pbase dbase cap)
    (inside : ¬ (2 ^ p.addrW < pbase + l ∨ 2 ^ p.addrW < dbase + cap)) (room : ¬ cap < 11 + l)
    (shared : Region.meets { base := pbase, len := l } { base := dbase, len := 11 + l } = true) :
    EarlyEnd i p c (.faulted .overlap)

section Reading
variable {i : Instr} {p : Params} {c : Codec} {rs : List Reg}

/-- Reading the next operand, where one of those still to read holds no value: the operation ends here, or the value is there and
the rest of the list lacks one. -/
theorem EarlyEnd.reading {α : Type} {r : Reg} {v : Option α} {rest : α → OpEnd} (lacks : c.Lacks (r :: rs))
    (reads : r ∈ opReads i) (hv : v = none ↔ c.read r = none)
    (hrest : ∀ x, v = some x → c.Lacks rs → EarlyEnd i p c (rest x)) : EarlyEnd i p c (reading r v rest) := by
  cases v with
  | none => exact .unwritten reads (hv.mp rfl)
  | some x => exact hrest x rfl ((Codec.lacks_cons.mp lacks).resolve_left fun h => Option.some_ne_none x (hv.mpr h))

/-- The two input registers of CRC16 and DECODE (30_encoding.md R85), which they read before any check. -/
theorem EarlyEnd.readingInput {rest : Nat → Nat → OpEnd} (hi : opReads i = [.aBase, .aLen]) (lacks : c.Lacks (opReads i)) :
    EarlyEnd i p c (Machine.reading .aBase c.req.aBase fun base => Machine.reading .aLen c.req.aLen fun n => rest base n) := by
  rw [hi] at lacks
  refine .reading lacks (by simp [hi]) .rfl fun base _ lacks => ?_
  refine .reading lacks (by simp [hi]) .rfl fun n _ lacks => ?_
  exact absurd lacks Codec.not_lacks_nil

/-- The header registers FRAME and ENCODE read one after the other (41_encoder.md R120, R124). -/
def headerRegs : List Reg := [.iVer, .iDst, .iSrc, .iType, .iCmdId, .iSeq, .iLast]

theorem EarlyEnd.readingHeader {rest : Byte → Byte → Byte → Byte → Byte → Byte → BitVec 1 → OpEnd}
    (lacks : c.Lacks (headerRegs ++ rs)) (reads : ∀ r ∈ headerRegs, r ∈ opReads i)
    (hrest : ∀ ver dst src type cmdId seq last, c.Lacks rs → EarlyEnd i p c (rest ver dst src type cmdId seq last)) :
    EarlyEnd i p c
      (Machine.reading .iVer c.req.iVer fun ver => Machine.reading .iDst c.req.iDst fun dst =>
        Machine.reading .iSrc c.req.iSrc fun src => Machine.reading .iType c.req.iType fun type =>
        Machine.reading .iCmdId c.req.iCmdId fun cmdId => Machine.reading .iSeq c.req.iSeq fun seq =>
        Machine.reading .iLast c.req.iLast fun last => rest ver dst src type cmdId seq last) := by
  refine .reading lacks (reads _ (by decide)) Option.map_eq_none_iff.symm fun ver _ lacks => ?_
  refine .reading lacks (reads _ (by decide)) Option.map_eq_none_iff.symm fun dst _ lacks => ?_
  refine .reading lacks (reads _ (by decide)) Option.map_eq_none_iff.symm fun src _ lacks => ?_
  refine .reading lacks (reads _ (by decide)) Option.map_eq_none_iff.symm fun type _ lacks => ?_
  refine .reading lacks (reads _ (by decide)) Option.map_eq_none_iff.symm fun cmdId _ lacks => ?_
  refine .reading lacks (reads _ (by decide)) Option.map_eq_none_iff.symm fun seq _ lacks => ?_
  refine .reading lacks (reads _ (by decide)) Option.map_eq_none_iff.symm fun last _ lacks => ?_
  exact hrest ver dst src type cmdId seq last lacks

end Reading

variable {p : Params} {c : Codec} {m : Memory}

theorem frameOp_lacking (lacks : c.Lacks (opReads .frame)) : EarlyEnd .frame p c (frameOp p c.req m) := by
  have lacks : c.Lacks (.iPLen :: (headerRegs ++ [.iPBase])) := by
    obtain ⟨r, hr, h⟩ := lacks
    exact ⟨r, (by decide : opReads .frame ⊆ _) hr, h⟩
  refine .reading lacks (by decide) .rfl fun l hl lacks => ?_
  split
  · next long => exact .tooLarge (.inl rfl) hl long
  · refine .readingHeader lacks (by decide) fun ver dst src type cmdId seq last lacks => ?_
    refine .reading lacks (by decide) .rfl fun pbase _ lacks => ?_
    exact absurd lacks Codec.not_lacks_nil

theorem encodeOp_lacking (lacks : c.Lacks (opReads .encode)) : EarlyEnd .encode p c (encodeOp p c.req m) := by
  have lacks : c.Lacks (.iPLen :: .iPBase :: .dBase :: .dCap :: (headerRegs ++ [])) := by
    obtain ⟨r, hr, h⟩ := lacks
    exact ⟨r, (by decide : opReads .encode ⊆ _) hr, h⟩
  refine .reading lacks (by decide) .rfl fun l hl lacks => ?_
  split
  · next long => exact .tooLarge (.inr rfl) hl long
  next short =>
  refine .reading lacks (by decide) .rfl fun pbase hp lacks => ?_
  refine .reading lacks (by decide) .rfl fun dbase hd lacks => ?_
  refine .reading lacks (by decide) .rfl fun cap hc lacks => ?_
  have holds : c.HoldsRegions l pbase dbase cap := ⟨hl, hp, hd, hc, Nat.le_of_not_lt short⟩
  simp only [Region.legal, Bool.or_eq_true, Bool.not_eq_true', decide_eq_false_iff_not, Nat.not_le, totalSize_eq]
  split
  · next past => exact .illegal rfl holds past
  next inside =>
  split
  · next small => exact .tooSmall rfl holds inside small
  next room =>
  split
  · next shared => exact .overlap rfl holds inside room shared
  · exact .readingHeader lacks (by decide) fun _ _ _ _ _ _ _ lacks => absurd lacks Codec.not_lacks_nil

/-- An operation that lacks an operand ends early. -/
theorem opRule_lacking {i : Instr} (lacks : c.Lacks (opReads i)) : EarlyEnd i p c (opRule i p c.req m) := by
  cases i with
  | crc16 => exact .readingInput rfl lacks
  | frame => exact frameOp_lacking lacks
  | encode => exact encodeOp_lacking lacks
  | decode => exact .readingInput rfl lacks

/-! ### The states these ends leave -/

/-- The first model fault recorded on a codec changes its fault record only (60_exceptions.md R186). -/
theorem State.finish_faulted {s : State} {k : Nat} (h : s.codecs[k]? = some c) (clear : c.fault = none) (f : ModelFault) :
    s.finish k c (.faulted f) = s.withInstance k { c with fault := some f } := by
  simp [State.finish, State.recordFault, State.withInstance, List.modify_eq_set_getElem?, h, Codec.record, clear]

theorem State.finish_raised (s : State) (c : Codec) (e : ErrorKind) :
    s.finish s.active c (.raised e) = s.answered c { status := some e.code } := rfl

/-- Settles O36: an operation that lacks an operand ends early (`opRule_lacking`), and each early end leaves the state the
statement names. -/
theorem operandWithoutValueFaults : Obligations.OperandWithoutValueFaults := by
  intro i s c r hc clear hr hread
  have early : EarlyEnd i s.params c (opRule i s.params c.req s.mem) := opRule_lacking ⟨r, hr, hread⟩
  rw [exec_of_active i hc]
  generalize opRule i s.params c.req s.mem = o at early
  cases early with
  | @unwritten r' reads empty => exact .inl ⟨r', reads, empty, by rw [State.finish_faulted hc clear]⟩
  | @tooLarge l op plen long => exact .inr (.inl ⟨op, ⟨l, plen, long⟩, rfl⟩)
  | @illegal l pbase dbase cap op holds past =>
    obtain ⟨hl, hp, hd, hcap, short⟩ := holds
    refine .inr (.inr ⟨op, l, pbase, dbase, cap, hl, hp, hd, hcap, short, ?_⟩)
    rw [if_pos past]; rfl
  | @tooSmall l pbase dbase cap op holds inside small =>
    obtain ⟨hl, hp, hd, hcap, short⟩ := holds
    refine .inr (.inr ⟨op, l, pbase, dbase, cap, hl, hp, hd, hcap, short, ?_⟩)
    rw [if_neg inside, if_pos small]; rfl
  | @overlap l pbase dbase cap op holds inside room shared =>
    obtain ⟨hl, hp, hd, hcap, short⟩ := holds
    refine .inr (.inr ⟨op, l, pbase, dbase, cap, hl, hp, hd, hcap, short, ?_⟩)
    rw [if_neg inside, if_neg room]
    obtain ⟨a, hpay, htgt⟩ := (Region.meets_iff _ _).mp shared
    exact ⟨⟨a, (Region.has_iff _ a).mp hpay, (Region.has_iff _ a).mp htgt⟩, by rw [State.finish_faulted hc clear]⟩

end Sys2Proof.Machine
end

section
/-! PROOFS. The registers by number (10_state.md R22): which register a number names, which registers are the host's, and what
each register reads as after a host register write (R31). -/
namespace Sys2Proof.Machine

/-! ### Numbers -/

@[simp] theorem Reg.ofNum_num (r : Reg) : Reg.ofNum r.num = some r := by cases r <;> rfl

theorem Reg.num_of_ofNum {n : RegNum} {r : Reg} (h : Reg.ofNum n = some r) : r.num = n := by
  simpa using List.find?_some h

theorem Reg.num_inj {r r' : Reg} : r.num = r'.num ↔ r = r' :=
  ⟨fun h => Option.some.inj (by rw [← Reg.ofNum_num, h, Reg.ofNum_num]), congrArg Reg.num⟩

/-- The reserved numbers are those of no register. -/
theorem Reg.ofNum_eq_none_iff (n : RegNum) : Reg.ofNum n = none ↔ n = 14 ∨ n = 15 ∨ 28 ≤ n := by
  revert n; decide +kernel

/-- The host's registers are those numbered up to 13 (10_state.md R23). -/
theorem Reg.isRequest_iff (r : Reg) : r.isRequest = true ↔ r.num ≤ 13 := by
  simp [Reg.isRequest, BitVec.le_def]

/-- A number past 13 names no register of the host's. -/
theorem Reg.isRequest_of_ofNum {n : RegNum} {r : Reg} (h : Reg.ofNum n = some r) (past : 13 < n) : r.isRequest = false := by
  rw [← Reg.num_of_ofNum h] at past
  simpa [Reg.isRequest, BitVec.lt_def] using past

/-- Settles O6: the numbers, widths and contents are the definitions'; the numbers that name a register are its own
(`Reg.ofNum_num`) and the reserved ones name none (`Reg.ofNum_eq_none_iff`). -/
theorem registerNumbersNameRegisters : Obligations.RegisterNumbersNameRegisters := by
  refine ⟨by decide, fun p => ?widths, fun c => ?contents, Reg.ofNum_num, Reg.ofNum_eq_none_iff⟩
  case widths => simp only [Reg.width, and_self]
  case contents => simp only [Codec.read, and_self]

/-! ### Reading back a write -/

/-- A value that fits its request register is read back (10_state.md R31). -/
theorem Codec.read_write_self {p : Params} {r : Reg} {x : Nat} (c : Codec) (request : r.isRequest = true)
    (fits : x < 2 ^ r.width p) : Codec.read { c with req := c.req.write p r x } r = some x := by
  have fits' : x % 2 ^ r.width p = x := Nat.mod_eq_of_lt fits
  cases r with
  | cmd | iVer | iDst | iSrc | iType | iCmdId | iSeq | iLast =>
    exact congrArg some ((BitVec.toNat_ofNat ..).trans fits')
  | aBase | aLen | dBase | dCap | iPBase | iPLen => exact congrArg some fits'
  | _ => cases request

/-- A write of a register changes no other. -/
theorem Codec.read_write_other {p : Params} {r r' : Reg} (x : Nat) (c : Codec) (h : r' ≠ r) :
    Codec.read { c with req := c.req.write p r x } r' = c.read r' := by
  cases r <;> cases r' <;> trivial

end Sys2Proof.Machine
end

section
/-! PROOFS. The host's register accesses (10_state.md R31, R32) and the hold on them (R41): what the step is when it is the
host's turn. -/
namespace Sys2Proof.Machine

section HostTurn
variable {s : State} {a : HostAction} {rest : List HostAction} {k : Nat} {c : Codec} {n : RegNum} {v : HostVal}

/-- On the host's turn the step is its next action, taken from the program. -/
theorem State.HostTurn.step_eq (h : s.HostTurn a rest) : step s = State.hostAct (s.taken rest) a := by
  obtain ⟨clear, turn, program⟩ := h
  simp [step, clear, turn, State.hostStep, program, State.taken, State.tick]

theorem State.holds_eq (ha : accessedInstance a = some k) (hc : s.codecs[k]? = some c) : s.holds a = c.held := by
  simp [State.holds, ha, hc]

theorem State.HostTurn.not_holds (h : s.HostTurn a rest) : s.holds a = false := by
  obtain ⟨a', rest', hp, held⟩ := State.enabled_host (State.turn_enabled h.turn)
  cases hp.symm.trans h.program
  exact held

/-- An access the host makes is to a codec that is neither busy nor faulted (10_state.md R41, 60_exceptions.md R186). -/
theorem State.HostTurn.free (h : s.HostTurn a rest) (ha : accessedInstance a = some k) (hc : s.codecs[k]? = some c) :
    c.isBusy = false ∧ c.fault = none := by
  simpa [State.holds_eq ha hc, Codec.held] using h.not_holds

theorem State.HostTurn.step_hw (h : s.HostTurn (.hw k n v) rest) (hc : s.codecs[k]? = some c) {x : Nat}
    (carries : s.Carries v x) : step s = .next ((s.taken rest).hostWrite k c n x) := by
  have hc' : (s.taken rest).codecs[k]? = some c := hc
  simp [h.step_eq, State.hostAct, State.onInstance, hc', State.hostValue_of_carries s carries]

theorem State.HostTurn.step_hr (h : s.HostTurn (.hr k n) rest) (hc : s.codecs[k]? = some c) :
    step s = .next ((s.taken rest).hostRead k c n) := by
  have hc' : (s.taken rest).codecs[k]? = some c := hc
  simp [h.step_eq, State.hostAct, State.onInstance, hc']

end HostTurn

/-! ### Writes -/

section Write
variable (s : State) (k : Nat) (c : Codec) {n : RegNum} {r : Reg} {x : Nat}

/-- A number that names no register of the host's is not writable. -/
theorem State.hostWrite_notWritable (h : ∀ r, Reg.ofNum n = some r → r.isRequest = false) :
    s.hostWrite k c n x = { s with refused := some (.hostWriteNotWritable n) } := by
  unfold State.hostWrite
  split
  · rfl
  · next r hr => simp [h r hr, State.refuse]

theorem State.hostWrite_tooWide (request : r.isRequest = true) (wide : 2 ^ r.width s.params ≤ x) :
    s.hostWrite k c r.num x = { s with refused := some (.valueTooWide r.num x) } := by
  simp [State.hostWrite, request, wide, State.refuse]

theorem State.hostWrite_stores (request : r.isRequest = true) (hr : r ≠ .cmd) (fits : x < 2 ^ r.width s.params) :
    s.hostWrite k c r.num x = s.withInstance k { c with req := c.req.write s.params r x } := by
  simp [State.hostWrite, request, Nat.not_le.mpr fits, hr, State.setCodec, State.withInstance]

end Write

/-- Settles O42: the step stores the value (`hostWrite_stores`), and the registers read so afterwards. -/
theorem hostWriteStoresValue : Obligations.HostWriteStoresValue := by
  intro s k x v c r rest turn carries hc request hr fits
  refine ⟨c.req.write s.params r x, ?_, Codec.read_write_self c request fits, fun r' h => Codec.read_write_other x c h⟩
  rw [turn.step_hw hc carries, State.hostWrite_stores (s.taken rest) k c request hr fits]
  rfl

/-- The widths of 10_state.md R22 in numbers: a value that passes its number's width passes its register's. -/
theorem Reg.exists_narrow {p : Params} {n : RegNum} {x : Nat}
    (h : (n = 0 ∧ 2 ^ 8 ≤ x) ∨ ((n = 1 ∨ n = 3 ∨ n = 12) ∧ 2 ^ p.addrW ≤ x) ∨ ((n = 2 ∨ n = 4 ∨ n = 13) ∧ 2 ^ p.lenW ≤ x) ∨
      ((5 ≤ n ∧ n ≤ 10) ∧ 2 ^ 8 ≤ x) ∨ (n = 11 ∧ 2 ≤ x)) :
    ∃ r : Reg, r.num = n ∧ r.isRequest = true ∧ 2 ^ r.width p ≤ x := by
  have header : ∀ n : RegNum, 5 ≤ n ∧ n ≤ 10 → n = 5 ∨ n = 6 ∨ n = 7 ∨ n = 8 ∨ n = 9 ∨ n = 10 := by decide +kernel
  obtain ⟨rfl, wide⟩ | ⟨rfl | rfl | rfl, wide⟩ | ⟨rfl | rfl | rfl, wide⟩ | ⟨hn, wide⟩ | ⟨rfl, wide⟩ := h
  · exact ⟨.cmd, rfl, rfl, wide⟩
  · exact ⟨.aBase, rfl, rfl, wide⟩
  · exact ⟨.dBase, rfl, rfl, wide⟩
  · exact ⟨.iPBase, rfl, rfl, wide⟩
  · exact ⟨.aLen, rfl, rfl, wide⟩
  · exact ⟨.dCap, rfl, rfl, wide⟩
  · exact ⟨.iPLen, rfl, rfl, wide⟩
  · obtain rfl | rfl | rfl | rfl | rfl | rfl := header n hn
    · exact ⟨.iVer, rfl, rfl, wide⟩
    · exact ⟨.iDst, rfl, rfl, wide⟩
    · exact ⟨.iSrc, rfl, rfl, wide⟩
    · exact ⟨.iType, rfl, rfl, wide⟩
    · exact ⟨.iCmdId, rfl, rfl, wide⟩
    · exact ⟨.iSeq, rfl, rfl, wide⟩
  · exact ⟨.iLast, rfl, rfl, wide⟩

theorem Reg.past_of_notWritable {n : RegNum} (h : n = 14 ∨ n = 15 ∨ 16 ≤ n) : 13 < n := by
  revert n; decide +kernel

/-- Settles O43: a number past 13 is not writable, a value past its register's width is refused, and without a value read the
host's program is at fault. -/
theorem hostWriteIsRefused : Obligations.HostWriteIsRefused := by
  intro s k v c n rest turn hc
  refine ⟨fun x carries => ⟨fun hn => ?notWritable, fun h => ?tooWide⟩, fun hv none => ?noValue⟩
  case notWritable =>
    have past : 13 < n := Reg.past_of_notWritable hn
    rw [turn.step_hw hc carries, State.hostWrite_notWritable _ k c fun r hr => Reg.isRequest_of_ofNum hr past]
  case tooWide =>
    obtain ⟨r, rfl, request, wide⟩ := Reg.exists_narrow h
    rw [turn.step_hw hc carries, State.hostWrite_tooWide (s.taken rest) k c request wide]
  case noValue =>
    subst hv
    have hc' : (s.taken rest).codecs[k]? = some c := hc
    have hval : (s.taken rest).hostValue .lastRead = Option.none := by
      obtain h | h := none <;> simp [State.hostValue, State.taken, h]
    simp [turn.step_eq, State.hostAct, State.onInstance, hc', hval]

/-! ### Reads -/

section Read
variable (s : State) (k : Nat) {c : Codec} {n : RegNum} {r : Reg}

theorem State.hostRead_reserved (h : Reg.ofNum n = none) :
    s.hostRead k c n = { s with refused := some (.hostReadReserved n) } := by
  simp [State.hostRead, h, State.refuse]

theorem State.hostRead_value {x : Nat} (h : c.read r = some x) :
    s.hostRead k c r.num = { s with returned := some x :: s.returned } := by
  simp [State.hostRead, h]

theorem State.hostRead_empty (hc : s.codecs[k]? = some c) (clear : c.fault = none) (h : c.read r = none) :
    s.hostRead k c r.num
      = { s.withInstance k { c with fault := some (.unwritten r) } with returned := none :: s.returned } := by
  rw [← State.finish_faulted hc clear]
  simp [State.hostRead, h, State.finish]

end Read

/-- Settles O44: the three cases of a host read, on the register its number names. -/
theorem hostReadReturnsValue : Obligations.HostReadReturnsValue := by
  intro s k c n rest turn hc
  rw [turn.step_hr hc]
  refine ⟨?_, ?_, fun reserved => ?_⟩
  · rintro r x rfl hr
    rw [State.hostRead_value _ k hr]
    rfl
  · rintro r rfl hr
    rw [State.hostRead_empty (s.taken rest) k hc (turn.free rfl hc).2 hr]
    rfl
  · rw [State.hostRead_reserved _ k ((Reg.ofNum_eq_none_iff n).mpr reserved)]

/-! ### The hold -/

theorem State.isFinal_program {s : State} (h : s.isFinal = true) : s.program = [] := by
  simp only [State.isFinal, Bool.and_eq_true, List.isEmpty_iff] at h
  exact h.1.1

/-- Settles O45: a step of the host's would perform the access, which is held; a final state has no access left; and a
codec's COMPLETE, refused or not, leaves the host's program and what its reads returned. -/
theorem heldAccessWaits : Obligations.HeldAccessWaits := by
  intro s t a rest k c hp access hc held h
  have ha : accessedInstance a = some k := by
    obtain ⟨n, v, rfl⟩ | ⟨n, rfl⟩ := access <;> rfl
  obtain ⟨-, ⟨a', rest', -, hp', free, -⟩ | ⟨j, d, op, fp, turn, -, -, -, ⟨i, -, hexec⟩ | ⟨w, -, rfl⟩⟩ | ⟨-, final, -⟩⟩ :=
    step_next h
  · cases hp.symm.trans hp'
    rw [State.holds_eq ha hc, Codec.held, Bool.or_eq_true_iff.mpr held] at free
    cases free
  · obtain ⟨d', -, rfl⟩ := exec_next hexec
    exact ⟨by simp, by simp, j, turn⟩
  · exact ⟨rfl, rfl, j, turn⟩
  · cases hp.symm.trans (State.isFinal_program final)

end Sys2Proof.Machine
end

section
/-! PROOFS. What an operation can answer, said once (10_state.md R30, 60_exceptions.md R180): the response registers of its
successes, its errors, and the memory it leaves. From it, the frame of every operation and the table of R30. -/
namespace Sys2Proof.Machine

/-- The errors an operation can raise (60_exceptions.md R180). -/
def errorsOf : Instr → List ErrorKind
  | .crc16 => []
  | .frame => [.payloadTooLarge]
  | .encode => [.payloadTooLarge, .bufferTooSmall]
  | .decode => [.bufferTooSmall, .badStartByte, .badLength, .badCrc]

/-- Every answer of an operation's rule (`opRule_answers`), with the registers in the form of the table of 10_state.md R30. -/
inductive OpAnswer (p : Params) (m : Memory) : Instr → OpEnd → Prop
  | crc16 (x : CrcWord) : OpAnswer p m .crc16 (.done { status := some 0, crc := some x } m)
  | frame {i : Instr} (op : i = .frame ∨ i = .decode) (f : FrameFields) (fits : f.pbase < 2 ^ p.addrW) :
    OpAnswer p m i (.done (RespRegs.ofFrame f) m)
  | encode {l base : Nat} {bytes : List Byte} (short : l ≤ 255) (room : base + bytes.length ≤ 2 ^ p.addrW) :
    OpAnswer p m .encode
      (.done { status := some 0, written := some (truncReg p .written (11 + l)) } (Memory.writeBytes m base bytes))
  | raised {i : Instr} {e : ErrorKind} (he : e ∈ errorsOf i) : OpAnswer p m i (.raised e)
  | faulted {i : Instr} (f : ModelFault) : OpAnswer p m i (.faulted f)
  | refused {i : Instr} (r : Request) : OpAnswer p m i (.refused r)

theorem OpAnswer.reading {p : Params} {m : Memory} {i : Instr} {α : Type} {r : Reg} {v : Option α} {rest : α → OpEnd}
    (h : ∀ x, OpAnswer p m i (rest x)) : OpAnswer p m i (reading r v rest) := by
  cases v with
  | none => exact .faulted _
  | some x => exact h x

section Answers
variable (p : Params) (q : ReqRegs) (m : Memory)

theorem truncReg_lt (r : Reg) (v : Nat) : truncReg p r v < 2 ^ r.width p := Nat.mod_lt _ (Nat.two_pow_pos _)

theorem crc16Op_answers : OpAnswer p m .crc16 (crc16Op p q m) := by
  refine .reading fun base => .reading fun n => ?_
  split
  · exact .refused _
  · exact .crc16 _

theorem frameOp_answers : OpAnswer p m .frame (frameOp p q m) := by
  refine .reading fun n => ?_
  split
  · exact .raised (by decide)
  refine .reading fun ver => .reading fun dst => .reading fun src => .reading fun type => .reading fun cmdId =>
    .reading fun seq => .reading fun last => .reading fun pbase => ?_
  exact .frame (.inl rfl) { ver, dst, src, type, cmdId, seq, last, pbase := truncReg p .fPBase pbase, plen := n }
    (truncReg_lt p .fPBase pbase)

theorem encodeOp_answers : OpAnswer p m .encode (encodeOp p q m) := by
  refine .reading fun l => ?_
  split
  · exact .raised (by decide)
  next short =>
  refine .reading fun pbase => .reading fun dbase => .reading fun cap => ?_
  split
  · exact .refused _
  next legal =>
  split
  · exact .raised (by decide)
  next room =>
  split
  · exact .faulted _
  refine .reading fun ver => .reading fun dst => .reading fun src => .reading fun type => .reading fun cmdId =>
    .reading fun seq => .reading fun last => ?_
  have dest : dbase + cap ≤ 2 ^ p.addrW := by
    simp only [Bool.or_eq_true, Bool.not_eq_true', not_or, Bool.not_eq_false, Region.legal_iff] at legal
    exact legal.2
  rw [totalSize_eq] at room ⊢
  refine .encode (Nat.le_of_not_lt short) ?_
  simp only [headerBytes, frameBytes_length, Memory.buf_length, List.length_cons, List.length_nil]
  omega

theorem decodeOp_answers : OpAnswer p m .decode (decodeOp p q m) := by
  refine .reading fun base => .reading fun n => ?_
  split
  · exact .refused _
  split
  · exact .raised (by decide)
  split
  · exact .raised (by decide)
  dsimp only
  split
  · exact .raised (by decide)
  split
  · exact .raised (by decide)
  exact .frame (.inr rfl)
    { ver := Memory.read m (base + 1), dst := Memory.read m (base + 2), src := Memory.read m (base + 3),
      type := Memory.read m (base + 4), cmdId := Memory.read m (base + 5), seq := Memory.read m (base + 6),
      last := lastOfByte (Memory.read m (base + 7)), pbase := truncReg p .fPBase (base + 9),
      plen := (Memory.read m (base + 8)).toNat } (truncReg_lt p .fPBase (base + 9))

theorem opRule_answers (i : Instr) : OpAnswer p m i (opRule i p q m) := by
  cases i with
  | crc16 => exact crc16Op_answers p q m
  | frame => exact frameOp_answers p q m
  | encode => exact encodeOp_answers p q m
  | decode => exact decodeOp_answers p q m

end Answers

/-! ### The frame of an operation -/

@[simp] theorem Codec.ended_req (c : Codec) (o : OpEnd) : (c.ended o).req = c.req := by cases o <;> rfl

/-- Only ENCODE leaves other memory than it found (20_memory.md R60). -/
theorem endMem_opRule {i : Instr} (hi : i ≠ .encode) (p : Params) (q : ReqRegs) (m : Memory) :
    endMem m (opRule i p q m) = m := by
  cases h : opRule i p q m with
  | done resp m' => exact opRule_done_mem hi h
  | raised e => rfl
  | faulted f => rfl
  | refused r => rfl

theorem State.finish_frameExcept (s : State) (k : Nat) (c : Codec) (o : OpEnd) : State.FrameExcept k s (s.finish k c o) where
  params := State.finish_params s k c o
  count := State.finish_length s k c o
  others _ h := State.finish_others s k c o h
  program := State.finish_program s k c o
  returned := State.finish_returned s k c o
  schedule := State.finish_schedule s k c o
  active := State.finish_active s k c o
  raceCount := State.finish_raceCount s k c o

/-- Settles O35: an operation that goes on only ends on its own codec (`exec_next`, `State.finish`). -/
theorem operationFrame : Obligations.OperationFrame := by
  intro i s t c hc h
  obtain ⟨d, hd, rfl⟩ := exec_next h
  cases hc.symm.trans hd
  refine ⟨State.finish_frameExcept s _ c _, ⟨_, State.finish_self s _ c _ hc, Codec.ended_req c _⟩, fun hi a => ?_⟩
  rw [State.finish_mem, endMem_opRule hi]

/-! ### The table of 10_state.md R30 -/

theorem OpAnswer.outcomeRow_done {p : Params} {m m' : Memory} {i : Instr} {resp : RespRegs}
    (h : OpAnswer p m i (.done resp m')) : OutcomeRow i resp := by
  cases h with
  | crc16 x => exact ⟨x, rfl⟩
  | frame op f fits => obtain rfl | rfl := op <;> exact .inl ⟨f, rfl⟩
  | encode short room => exact .inl ⟨_, rfl⟩

theorem OpAnswer.outcomeRow_raised {p : Params} {m : Memory} {i : Instr} {e : ErrorKind}
    (h : OpAnswer p m i (.raised e)) : OutcomeRow i (RespRegs.ofError e) := by
  cases h with
  | raised he =>
    cases i <;> simp only [errorsOf, List.mem_cons, List.not_mem_nil, or_false] at he
    case frame => subst he; exact .inr rfl
    case encode =>
      obtain rfl | rfl := he
      · exact .inr (.inl rfl)
      · exact .inr (.inr rfl)
    case decode =>
      obtain rfl | rfl | rfl | rfl := he
      · exact .inr (.inl rfl)
      · exact .inr (.inr (.inl rfl))
      · exact .inr (.inr (.inr (.inl rfl)))
      · exact .inr (.inr (.inr (.inr rfl)))

/-- A state with a fault recorded is not final (60_exceptions.md R186). -/
theorem State.not_isFinal_of_fault {s : State} {k : Nat} {c : Codec} (hc : s.codecs[k]? = some c)
    (hf : c.fault.isSome = true) : s.isFinal = false := by
  have hmem : c ∈ s.codecs := List.mem_of_getElem? hc
  by_contra final
  simp only [State.isFinal, Bool.not_eq_false, Bool.and_eq_true, List.all_eq_true, Option.isNone_iff_eq_none] at final
  simp [(final.2 c hmem).2] at hf

/-- A state with the refused mark set is not final (60_exceptions.md R187). -/
theorem State.not_isFinal_of_refused {s : State} (h : s.refused.isSome = true) : s.isFinal = false := by
  obtain ⟨r, h⟩ := Option.isSome_iff_exists.mp h
  simp [State.isFinal, h]

/-- Settles O37: by the four ways an operation ends; its results and its errors are rows of the table (`opRule_answers`). -/
theorem outcomeDefinesResponses : Obligations.OutcomeDefinesResponses := by
  intro i s t c hc h
  obtain ⟨d, hd, rfl⟩ := exec_next h
  cases hc.symm.trans hd
  have answer := opRule_answers s.params c.req s.mem i
  generalize opRule i s.params c.req s.mem = o at answer
  have hself := State.finish_self s _ c o hc
  refine ⟨c.ended o, hself, ?_⟩
  cases o with
  | done resp m => exact .inl ⟨resp, answer.outcomeRow_done, rfl, rfl⟩
  | raised e => exact .inl ⟨_, answer.outcomeRow_raised, rfl, rfl⟩
  | faulted f =>
    have hf : (c.ended (.faulted f)).fault.isSome = true := by simp [Codec.ended]
    exact .inr (.inl ⟨hf, rfl, rfl, State.not_isFinal_of_fault hself hf⟩)
  | refused r => exact .inr (.inr ⟨rfl, rfl, State.not_isFinal_of_refused rfl⟩)

end Sys2Proof.Machine
end

section
/-! PROOFS. What one step can do to one codec, said once (`step_moves`). From it, which steps change a request register
(10_state.md R23) and which a response register (R24). -/
namespace Sys2Proof.Machine

/-- The codec with CMD written, as START leaves it (30_encoding.md R80). -/
def Codec.withCmd (c : Codec) (op : Byte) : Codec := { c with req := { c.req with cmd := some op } }

@[simp] theorem Codec.withCmd_resp (c : Codec) (op : Byte) : (c.withCmd op).resp = c.resp := rfl
@[simp] theorem Codec.withCmd_phase (c : Codec) (op : Byte) : (c.withCmd op).phase = c.phase := rfl
@[simp] theorem Codec.withCmd_inFlight (c : Codec) (op : Byte) : (c.withCmd op).inFlight = c.inFlight := rfl

theorem Codec.read_withCmd_self (c : Codec) (op : Byte) : (c.withCmd op).read .cmd = some op.toNat := rfl

theorem Codec.read_withCmd_other (c : Codec) (op : Byte) {r : Reg} (h : r ≠ .cmd) : (c.withCmd op).read r = c.read r := by
  cases r <;> trivial

/-- A register's content depends on the request and the response registers only. -/
theorem Codec.read_congr {c c' : Codec} (req : c'.req = c.req) (resp : c'.resp = c.resp) (r : Reg) : c'.read r = c.read r := by
  cases r <;> simp only [Codec.read, req, resp]

/-! ### The moves of a codec -/

/-- What a step from `s` can do to codec `k`, which is `c`: each move with the turn it takes and what it depends on. -/
inductive CodecMove (s : State) (k : Nat) (c : Codec) : Codec → Prop
  | stays : CodecMove s k c c
  /-- A fault of another agent's making, or of a host read (20_memory.md R58, 10_state.md R32). -/
  | faults (f : ModelFault) : CodecMove s k c (c.record f)
  | writes {r : Reg} {v : HostVal} {x : Nat} {rest : List HostAction} (turn : s.HostTurn (.hw k r.num v) rest)
    (request : r.isRequest = true) (fits : x < 2 ^ r.width s.params) :
    CodecMove s k c { c with req := c.req.write s.params r x }
  | startFails {v : HostVal} {rest : List HostAction} (turn : s.HostTurn (.hw k 0 v) rest) (op : Byte) (f : ModelFault) :
    CodecMove s k c ((c.withCmd op).record f)
  | starts {v : HostVal} {rest : List HostAction} {op : Byte} {i : Instr} (turn : s.HostTurn (.hw k 0 v) rest)
    (decoded : decode op = .ok i) (written : (c.withCmd op).firstUnwritten i = none)
    (alone : s.conflictsElsewhere k (footprint i c.req) = false) :
    CodecMove s k c { c.withCmd op with phase := .busy op (footprint i c.req) }
  | resets {rest : List HostAction} (turn : s.HostTurn (.reset k) rest) (idle : c.isBusy = false) :
    CodecMove s k c { fault := c.fault }
  | completes {op : Byte} {fp : Footprint} (i : Instr) (turn : s.turn = some (.codec k)) (phase : c.phase = .busy op fp)
    (decoded : decode op = .ok i) : CodecMove s k c (c.ended (opRule i s.params c.req s.mem))

/-- From `s` to `t` every codec makes one of these moves. -/
structure State.Moves (s t : State) : Prop where
  count : t.codecs.length = s.codecs.length
  each : ∀ (k : Nat) (c c' : Codec), s.codecs[k]? = some c → t.codecs[k]? = some c' → CodecMove s k c c'

section Moves
variable {s t : State} {k : Nat} {c c' : Codec}

theorem State.Moves.of_same (h : t.codecs = s.codecs) : s.Moves t where
  count := congrArg List.length h
  each k c c' hc hc' := by
    rw [h, hc] at hc'
    cases hc'
    exact .stays

theorem State.Moves.of_set (hc : s.codecs[k]? = some c) (move : CodecMove s k c c') (h : t.codecs = s.codecs.set k c') :
    s.Moves t where
  count := by rw [h, List.length_set]
  each j d d' hd hd' := by
    rw [h] at hd'
    by_cases hj : k = j
    · subst hj
      rw [List.getElem?_set_self (List.getElem?_eq_some_iff.mp hc).1] at hd'
      cases hd'
      cases hc.symm.trans hd
      exact move
    · rw [List.getElem?_set_ne hj, hd] at hd'
      cases hd'
      exact .stays

theorem State.Moves.of_races {hit : Codec → Bool}
    (h : t.codecs = s.codecs.map (fun c => if hit c then c.record .race else c)) : s.Moves t where
  count := by rw [h, List.length_map]
  each k c c' hc hc' := by
    rw [h, List.getElem?_map, hc] at hc'
    cases hc'
    dsimp only
    split
    · exact .faults .race
    · exact .stays

theorem State.modify_record (hc : s.codecs[k]? = some c) (f : ModelFault) :
    s.codecs.modify k (fun c => c.record f) = s.codecs.set k (c.record f) := by
  simp [List.modify_eq_set_getElem?, hc]

/-- A racing START writes CMD and records the fault on its own codec, and records it on others (20_memory.md R58). -/
theorem State.Moves.of_raceAtStart {v : HostVal} {rest : List HostAction} (turn : s.HostTurn (.hw k 0 v) rest)
    (hc : s.codecs[k]? = some c) (op : Byte) (fp : Footprint) :
    s.Moves (((s.taken rest).setCodec k (c.withCmd op)).raceAtStart k fp) where
  count := by simp [State.taken]
  each j d d' hd hd' := by
    rw [State.raceAtStart_codecs, List.getElem?_mapIdx] at hd'
    by_cases hj : k = j
    · subst hj
      cases hc.symm.trans hd
      have hset : ((s.taken rest).setCodec k (c.withCmd op)).codecs[k]? = some (c.withCmd op) :=
        List.getElem?_set_self (List.getElem?_eq_some_iff.mp hc).1
      rw [hset, Option.map_some, if_pos (.inl rfl)] at hd'
      cases hd'
      exact .startFails turn op .race
    · have hset : ((s.taken rest).setCodec k (c.withCmd op)).codecs[j]? = some d :=
        (List.getElem?_set_ne hj).trans hd
      rw [hset] at hd'
      cases hd'
      dsimp only
      split
      · exact .faults .race
      · exact .stays

theorem State.start_moves {v : HostVal} {rest : List HostAction} (turn : s.HostTurn (.hw k 0 v) rest)
    (hc : s.codecs[k]? = some c) (op : Byte) : s.Moves ((s.taken rest).start k c op) := by
  obtain ⟨w, -, h⟩ | ⟨i, decoded, ⟨r, -, h⟩ | ⟨-, -, h⟩ | ⟨written, alone, h⟩⟩ := start_cases (s.taken rest) k c op
  · exact .of_same (by rw [h]; rfl)
  · refine .of_set hc (.startFails turn op (.unwritten r)) ?_
    rw [h, State.recordFault_codecs, State.modify_record (c := c.withCmd op)]
    · exact List.set_set _
    · exact List.getElem?_set_self (List.getElem?_eq_some_iff.mp hc).1
  · rw [h]
    exact .of_raceAtStart turn hc op _
  · exact .of_set hc (.starts turn decoded written alone) (by rw [h]; rfl)

theorem State.hostWrite_moves {n : RegNum} {v : HostVal} {rest : List HostAction} (turn : s.HostTurn (.hw k n v) rest)
    (hc : s.codecs[k]? = some c) (x : Nat) : s.Moves ((s.taken rest).hostWrite k c n x) := by
  obtain h | h | ⟨rfl, -, h⟩ | ⟨r, rfl, request, -, fits, h⟩ := hostWrite_cases (s.taken rest) k c n x
  · exact .of_same (by rw [h]; rfl)
  · exact .of_same (by rw [h]; rfl)
  · rw [h]
    exact State.start_moves turn hc _
  · exact .of_set hc (.writes turn request fits) (by rw [h]; rfl)

theorem State.hostRead_moves (hc : s.codecs[k]? = some c) (rest : List HostAction) (n : RegNum) :
    s.Moves ((s.taken rest).hostRead k c n) := by
  unfold State.hostRead
  split
  · exact .of_same rfl
  · split
    · exact .of_set hc (.faults _) (State.modify_record hc _)
    · exact .of_same rfl

theorem State.hostMemWrite_moves (rest : List HostAction) (a : Nat) (v : Byte) : s.Moves ((s.taken rest).hostMemWrite a v) := by
  unfold State.hostMemWrite
  split_ifs
  · exact .of_same rfl
  · exact .of_races rfl
  · exact .of_same rfl

theorem State.hostMemRead_moves (rest : List HostAction) (a : Nat) : s.Moves ((s.taken rest).hostMemRead a) := by
  unfold State.hostMemRead
  split_ifs
  · exact .of_same rfl
  · exact .of_races rfl
  · exact .of_same rfl

theorem State.hostReset_moves {rest : List HostAction} (turn : s.HostTurn (.reset k) rest) (hc : s.codecs[k]? = some c) :
    s.Moves ((s.taken rest).hostReset k c) := by
  unfold State.hostReset
  split
  · exact .of_same rfl
  · next idle => exact .of_set hc (.resets turn (by simpa using idle)) rfl

theorem State.hostAct_moves {a : HostAction} {rest : List HostAction} (turn : s.HostTurn a rest)
    (h : State.hostAct (s.taken rest) a = .next t) : s.Moves t := by
  obtain ⟨k, n, v, c, x, rfl, hc, -, rfl⟩ | ⟨k, n, c, rfl, hc, rfl⟩ | ⟨x, v, rfl, rfl⟩ | ⟨x, rfl, rfl⟩ | ⟨k, c, rfl, hc, rfl⟩ :=
    hostAct_next h
  · exact State.hostWrite_moves turn hc x
  · exact State.hostRead_moves (s := s) hc rest n
  · exact State.hostMemWrite_moves rest x v
  · exact State.hostMemRead_moves rest x
  · exact State.hostReset_moves turn hc

/-- The end of an operation leaves the codecs but its own as they were. -/
theorem State.finish_codecs (s : State) (o : OpEnd) (hc : s.codecs[k]? = some c) :
    (s.finish k c o).codecs = s.codecs.set k (c.ended o) := by
  refine List.ext_getElem? fun j => ?_
  by_cases hj : k = j
  · subst hj
    rw [State.finish_self s k c o hc, List.getElem?_set_self (List.getElem?_eq_some_iff.mp hc).1]
  · rw [State.finish_others s k c o (Ne.symm hj), List.getElem?_set_ne hj]

/-- Everything a step can do to the codecs. -/
theorem step_moves (h : step s = .next t) : s.Moves t := by
  obtain ⟨clear, ⟨a, rest, turn, program, -, hact⟩ | ⟨k, c, op, fp, turn, hc, phase, -, ⟨i, decoded, hexec⟩ | ⟨v, -, rfl⟩⟩ |
    ⟨-, -, rfl⟩⟩ := step_next h
  · exact State.hostAct_moves ⟨clear, turn, program⟩ hact
  · obtain ⟨d, hd, rfl⟩ := exec_next hexec
    cases hc.symm.trans hd
    exact .of_set hc (.completes i turn phase decoded) (State.finish_codecs (s.activate k) _ hc)
  · exact .of_same rfl
  · exact .of_same rfl

end Moves

/-! ### Who changes which registers -/

/-- Settles O55: of a codec's moves only the host's write of a register, START's of CMD, and RESET change a request
register. -/
theorem requestRegistersAreTheHosts : Obligations.RequestRegistersAreTheHosts := by
  intro s t k c c' hc hc' h changed
  cases (step_moves h).each k c c' hc hc' with
  | stays => exact absurd rfl changed
  | faults f => exact absurd rfl changed
  | completes i => exact absurd (Codec.ended_req c _) changed
  | resets turn => exact ⟨turn.turn, _, _, turn.program, .inl rfl⟩
  | @writes r v x rest turn request fits =>
    refine ⟨turn.turn, _, _, turn.program, .inr ⟨_, _, rfl, (Reg.isRequest_iff r).mp request, fun r' hr' _ => ?_⟩⟩
    exact Codec.read_write_other x c fun same => hr' (congrArg Reg.num same)
  | startFails turn op f =>
    refine ⟨turn.turn, _, _, turn.program, .inr ⟨_, _, rfl, by decide, fun r hr _ => ?_⟩⟩
    rw [Codec.record_read]
    exact Codec.read_withCmd_other c op fun same => hr (congrArg Reg.num same)
  | @starts v rest op i turn decoded written alone =>
    refine ⟨turn.turn, _, _, turn.program, .inr ⟨_, _, rfl, by decide, fun r hr _ => ?_⟩⟩
    exact (Codec.read_congr rfl rfl r).trans (Codec.read_withCmd_other c op fun same => hr (congrArg Reg.num same))

/-- Settles O56: of a codec's moves only RESET and a COMPLETE with results or an error change a response register. -/
theorem responseRegistersAreTheOperations : Obligations.ResponseRegistersAreTheOperations := by
  intro s t k c c' hc hc' h changed
  cases (step_moves h).each k c c' hc hc' with
  | stays | faults | writes | startFails | starts => exact absurd rfl changed
  | resets turn => exact .inr ⟨turn.turn, _, turn.program⟩
  | completes i turn phase decoded =>
    refine .inl ⟨turn, by simp [Codec.isBusy, phase], ?_⟩
    generalize opRule i s.params c.req s.mem = o at changed
    cases o with
    | done resp m => rfl
    | raised e => rfl
    | faulted f => exact absurd rfl changed
    | refused r => exact absurd rfl changed

end Sys2Proof.Machine
end

section
/-! PROOFS. The invariant (`State.Inv`): every move of a codec keeps its registers within their widths, its operation in
flight sound and its response registers a row of the table of 10_state.md R30; every step keeps the memory form and the
distance of the operations in flight (20_memory.md R50, R58). -/
namespace Sys2Proof.Machine

/-! ### Register widths (10_state.md R22) -/

section Fits
variable {p : Params} {c : Codec}

theorem Codec.Fits.congr {c' : Codec} (h : c.Fits p) (read : ∀ r, c'.read r = c.read r) : c'.Fits p := by
  intro r v hv
  rw [read] at hv
  exact h r v hv

theorem Codec.Fits.write (h : c.Fits p) {r : Reg} {x : Nat} (request : r.isRequest = true) (fits : x < 2 ^ r.width p) :
    Codec.Fits p { c with req := c.req.write p r x } := by
  intro r' v hv
  by_cases hr : r' = r
  · subst hr
    rw [Codec.read_write_self c request fits] at hv
    cases hv
    exact fits
  · rw [Codec.read_write_other x c hr] at hv
    exact h r' v hv

theorem Codec.Fits.withCmd (h : c.Fits p) (op : Byte) : (c.withCmd op).Fits p := by
  intro r v hv
  by_cases hr : r = .cmd
  · subst hr
    cases hv
    exact op.isLt
  · rw [Codec.read_withCmd_other c op hr] at hv
    exact h r v hv

theorem Codec.fits_reset (f : Option ModelFault) : Codec.Fits p { fault := f } := by
  intro r v hv
  cases r <;> cases hv

theorem toNat_lt_of_map {w n : Nat} {v : Option (BitVec w)} (h : v.map BitVec.toNat = some n) : n < 2 ^ w := by
  obtain ⟨x, -, rfl⟩ := Option.map_eq_some_iff.mp h
  exact x.isLt

/-- Of the response registers only WRITTEN and F_PBASE are held as numbers, which may be too wide. -/
theorem Codec.Fits.complete (h : c.Fits p) {resp : RespRegs} (written : ∀ v, resp.written = some v → v < 2 ^ p.lenW)
    (pbase : ∀ v, resp.fPBase = some v → v < 2 ^ p.addrW) : (c.complete resp).Fits p := by
  intro r v hv
  cases r with
  | cmd | aBase | aLen | dBase | dCap | iVer | iDst | iSrc | iType | iCmdId | iSeq | iLast | iPBase | iPLen => exact h _ v hv
  | status | crc | fVer | fDst | fSrc | fType | fCmdId | fSeq | fLast | fPLen => exact toNat_lt_of_map hv
  | written => exact written v hv
  | fPBase => exact pbase v hv

end Fits

/-! ### Operations in flight (30_encoding.md R80) -/

theorem Codec.firstUnwritten_congr {c c' : Codec} (read : ∀ r, c'.read r = c.read r) (i : Instr) :
    c'.firstUnwritten i = c.firstUnwritten i := by
  simp only [Codec.firstUnwritten, read]

theorem Codec.InFlightSound.of_idle {c : Codec} (h : c.isBusy = false) : c.InFlightSound := by
  intro op fp phase
  simp [Codec.isBusy, phase] at h

theorem Codec.InFlightSound.record {c : Codec} (h : c.InFlightSound) (f : ModelFault) : (c.record f).InFlightSound := by
  intro op fp phase
  obtain ⟨i, decoded, cmd, written, hfp⟩ := h op fp phase
  exact ⟨i, decoded, cmd, (Codec.firstUnwritten_congr (c.record_read f) i).trans written, hfp⟩

/-- CMD is no operand, so writing it leaves the footprint (20_memory.md R58). -/
theorem footprint_withCmd (i : Instr) (c : Codec) (op : Byte) : footprint i (c.withCmd op).req = footprint i c.req := by
  cases i <;> rfl

theorem Codec.InFlightSound.start {c : Codec} {op : Byte} {i : Instr} (decoded : decode op = .ok i)
    (written : (c.withCmd op).firstUnwritten i = none) :
    Codec.InFlightSound { c.withCmd op with phase := .busy op (footprint i c.req) } := by
  intro op' fp phase
  cases phase
  refine ⟨i, decoded, rfl, ?_, (footprint_withCmd i c op).symm⟩
  exact (Codec.firstUnwritten_congr (fun r => Codec.read_congr rfl rfl r) i).trans written

/-! ### Soundness of one codec -/

/-- What the invariant asks of one codec. -/
structure Codec.Sound (p : Params) (c : Codec) : Prop where
  fits : c.Fits p
  inFlight : c.InFlightSound
  legal : c.resp.Legal

theorem Codec.Sound.record {p : Params} {c : Codec} (h : c.Sound p) (f : ModelFault) : (c.record f).Sound p :=
  ⟨h.fits.congr (c.record_read f), h.inFlight.record f, h.legal⟩

/-- WRITTEN holds the frame's length whole, since `LEN_W` is at least 9 (00_scope.md R8, 41_encoder.md R128). -/
theorem truncReg_written {p : Params} (hp : p.wf = true) {l : Nat} (short : l ≤ 255) :
    truncReg p .written (11 + l) = 11 + l := by
  have wide : 9 ≤ p.lenW := by
    simp only [Params.wf, Bool.and_eq_true, decide_eq_true_eq] at hp
    exact hp.2
  have room : 2 ^ 9 ≤ 2 ^ p.lenW := Nat.pow_le_pow_right (by decide) wide
  exact Nat.mod_eq_of_lt (show 11 + l < 2 ^ p.lenW by omega)

/-- The response registers of an operation's results are legal and fit. -/
theorem Codec.Sound.complete {p : Params} (hp : p.wf = true) {c : Codec} (h : c.Sound p) {i : Instr} {m m' : Memory}
    {resp : RespRegs} (answer : OpAnswer p m i (.done resp m')) : (c.complete resp).Sound p := by
  have idle : (c.complete resp).InFlightSound := .of_idle rfl
  cases answer with
  | crc16 x => exact ⟨h.fits.complete nofun nofun, idle, .crc16 x⟩
  | frame op f fits =>
    refine ⟨h.fits.complete nofun fun v hv => ?_, idle, .frame ..⟩
    cases hv
    exact fits
  | @encode l base bytes short room =>
    rw [truncReg_written hp short] at idle ⊢
    refine ⟨h.fits.complete (fun v hv => ?_) nofun, idle, .encode _ (by omega) (by omega)⟩
    cases hv
    rw [← truncReg_written hp short]
    exact truncReg_lt p .written _

theorem Codec.Sound.ended {p : Params} (hp : p.wf = true) {c : Codec} (h : c.Sound p) {i : Instr} {m : Memory} {o : OpEnd}
    (answer : OpAnswer p m i o) : (c.ended o).Sound p := by
  cases o with
  | done resp m' => exact h.complete hp answer
  | raised e => exact ⟨h.fits.complete nofun nofun, .of_idle rfl, .error e⟩
  | faulted f => exact h.record f
  | refused r => exact h

/-- Every move keeps a codec sound. -/
theorem CodecMove.keeps_sound {s : State} (hp : s.params.wf = true) {k : Nat} {c c' : Codec} (hc : s.codecs[k]? = some c)
    (h : c.Sound s.params) (move : CodecMove s k c c') : c'.Sound s.params := by
  cases move with
  | stays => exact h
  | faults f => exact h.record f
  | writes turn request fits => exact ⟨h.fits.write request fits, .of_idle (turn.free rfl hc).1, h.legal⟩
  | startFails turn op f =>
    have written : (c.withCmd op).Sound s.params := ⟨h.fits.withCmd op, .of_idle (turn.free rfl hc).1, h.legal⟩
    exact written.record f
  | @starts v rest op i turn decoded written alone =>
    exact ⟨(h.fits.withCmd op).congr fun r => Codec.read_congr rfl rfl r, .start decoded written, h.legal⟩
  | resets turn idle => exact ⟨Codec.fits_reset _, .of_idle rfl, .empty⟩
  | completes i => exact h.ended hp (opRule_answers s.params c.req s.mem i)

/-! ### Footprints (20_memory.md R58) -/

theorem State.conflicts_elsewhere {s : State} {k : Nat} {fp : Footprint} (alone : s.conflictsElsewhere k fp = false) {j : Nat}
    (hj : j ≠ k) {d : Codec} (hd : s.codecs[j]? = some d) {g : Footprint} (hg : d.inFlight = some g) :
    fp.conflicts g = false := by
  simp only [State.conflictsElsewhere, List.any_eq_false] at alone
  simpa [Codec.conflictsWith, hg] using alone d (List.mem_eraseIdx_iff_getElem?.mpr ⟨j, hj, hd⟩)

/-- An operation in flight after a move was so before it, or starts with a footprint that meets no other's. -/
theorem CodecMove.inFlight {s : State} {k : Nat} {c c' : Codec} (move : CodecMove s k c c') {f : Footprint}
    (hf : c'.inFlight = some f) :
    c.inFlight = some f ∨ ((∃ v rest, s.HostTurn (.hw k 0 v) rest) ∧ s.conflictsElsewhere k f = false) := by
  cases move with
  | stays | faults | writes | startFails => exact .inl hf
  | @starts v rest op i turn decoded written alone =>
    cases hf
    exact .inr ⟨⟨v, rest, turn⟩, alone⟩
  | resets => cases hf
  | completes i =>
    generalize opRule i s.params c.req s.mem = o at hf
    cases o with
    | done | raised => cases hf
    | faulted | refused => exact .inl hf

theorem State.Moves.noConflict {s t : State} (moves : s.Moves t) (h : s.NoConflict) : t.NoConflict := by
  have before : ∀ {k : Nat} {c' : Codec}, t.codecs[k]? = some c' → ∃ c, s.codecs[k]? = some c := fun hc' =>
    ⟨_, List.getElem?_eq_getElem (moves.count ▸ (List.getElem?_eq_some_iff.mp hc').1)⟩
  intro j k hjk cj' ck' hj' hk' f g hf hg
  obtain ⟨cj, hj⟩ := before hj'
  obtain ⟨ck, hk⟩ := before hk'
  obtain hf | ⟨⟨v, rest, turn⟩, alone⟩ := (moves.each j cj cj' hj hj').inFlight hf <;>
    obtain hg | ⟨⟨v', rest', turn'⟩, alone'⟩ := (moves.each k ck ck' hk hk').inFlight hg
  · exact h j k hjk cj ck hj hk f g hf hg
  · rw [Footprint.conflicts_comm]
    exact State.conflicts_elsewhere alone' hjk hj hf
  · exact State.conflicts_elsewhere alone hjk.symm hk hg
  · cases turn.program.symm.trans turn'.program
    exact absurd rfl hjk

/-! ### Caller memory (20_memory.md R50) -/

/-- `State.MemSound` of a memory: canonical, and inside the address space. -/
def Memory.Sound (p : Params) (m : Memory) : Prop := Memory.wf m = true ∧ ∀ cell ∈ m, cell.1 < 2 ^ p.addrW

theorem State.memSound_iff (s : State) : s.MemSound ↔ s.mem.Sound s.params := Iff.rfl

theorem Memory.Sound.write {p : Params} {m : Memory} (h : m.Sound p) {a : Nat} (ha : a < 2 ^ p.addrW) (v : Byte) :
    (m.write a v).Sound p := by
  refine ⟨Memory.wf_write h.1 a v, fun cell hcell => ?_⟩
  obtain same | old := Memory.mem_write hcell
  · exact same ▸ ha
  · exact h.2 cell old

theorem Memory.Sound.writeBytes {p : Params} {m : Memory} (h : m.Sound p) {base : Nat} {vs : List Byte}
    (room : base + vs.length ≤ 2 ^ p.addrW) : (m.writeBytes base vs).Sound p := by
  refine ⟨Memory.wf_writeBytes h.1 base vs, fun cell hcell => ?_⟩
  obtain inside | old := Memory.mem_writeBytes hcell
  · omega
  · exact h.2 cell old

theorem OpAnswer.memSound {p : Params} {m : Memory} {i : Instr} {o : OpEnd} (h : OpAnswer p m i o) (hm : m.Sound p) :
    (endMem m o).Sound p := by
  cases h with
  | encode short room => exact hm.writeBytes room
  | crc16 | frame | raised | faulted | refused => exact hm

section HostMem
variable (s : State) (k : Nat) (c : Codec)

@[simp] theorem State.start_mem (op : Byte) : (s.start k c op).mem = s.mem := by
  obtain ⟨v, -, h⟩ | ⟨i, -, ⟨r, -, h⟩ | ⟨-, -, h⟩ | ⟨-, -, h⟩⟩ := start_cases s k c op <;> rw [h] <;> rfl

@[simp] theorem State.hostWrite_mem (n : RegNum) (v : Nat) : (s.hostWrite k c n v).mem = s.mem := by
  obtain h | h | ⟨-, -, h⟩ | ⟨r, -, -, -, -, h⟩ := hostWrite_cases s k c n v <;> rw [h] <;> simp

@[simp] theorem State.hostRead_mem (n : RegNum) : (s.hostRead k c n).mem = s.mem := by
  unfold State.hostRead
  split
  · rfl
  · split <;> rfl

@[simp] theorem State.hostMemRead_mem (a : Nat) : (s.hostMemRead a).mem = s.mem := by
  unfold State.hostMemRead
  split_ifs <;> rfl

@[simp] theorem State.hostReset_mem : (s.hostReset k c).mem = s.mem := by
  unfold State.hostReset
  split <;> rfl

/-- The one host action that writes memory is refused past the top of it (20_memory.md R53). -/
theorem State.hostMemWrite_memSound {s : State} (h : s.mem.Sound s.params) (a : Nat) (v : Byte) :
    (s.hostMemWrite a v).mem.Sound s.params := by
  unfold State.hostMemWrite
  split_ifs with past hit
  · exact h
  · exact h.write (Nat.lt_of_not_le past) _
  · exact h.write (Nat.lt_of_not_le past) v

end HostMem

theorem State.hostAct_memSound {s t : State} {a : HostAction} (hm : s.mem.Sound s.params) (h : State.hostAct s a = .next t) :
    t.mem.Sound s.params := by
  obtain ⟨k, n, v, c, x, -, -, -, rfl⟩ | ⟨k, n, c, -, -, rfl⟩ | ⟨x, v, -, rfl⟩ | ⟨x, -, rfl⟩ | ⟨k, c, -, -, rfl⟩ :=
    hostAct_next h
  · simpa using hm
  · simpa using hm
  · exact State.hostMemWrite_memSound hm x v
  · simpa using hm
  · simpa using hm

theorem step_memSound {s t : State} (hm : s.mem.Sound s.params) (h : step s = .next t) : t.mem.Sound s.params := by
  obtain ⟨-, ⟨a, rest, -, -, -, hact⟩ | ⟨k, c, op, fp, -, -, -, -, ⟨i, -, hexec⟩ | ⟨v, -, rfl⟩⟩ | ⟨-, -, rfl⟩⟩ := step_next h
  · exact State.hostAct_memSound (s := s.taken rest) hm hact
  · obtain ⟨d, -, rfl⟩ := exec_next hexec
    rw [State.finish_mem]
    exact (opRule_answers s.params d.req s.mem i).memSound hm
  · exact hm
  · exact hm

/-! ### The invariant -/

theorem State.Inv.sound {s : State} (h : s.Inv) {c : Codec} (hc : c ∈ s.codecs) : c.Sound s.params :=
  ⟨h.fits c hc, h.inFlight c hc, h.legal c hc⟩

theorem State.Moves.keeps_sound {s t : State} (moves : s.Moves t) (h : s.Inv) {c' : Codec} (hc' : c' ∈ t.codecs) :
    c'.Sound s.params := by
  obtain ⟨k, hk, hget⟩ := List.mem_iff_getElem.mp hc'
  have hk' : k < s.codecs.length := moves.count ▸ hk
  have hc : s.codecs[k]? = some s.codecs[k] := List.getElem?_eq_getElem hk'
  exact (moves.each k _ c' hc (List.getElem?_eq_some_iff.mpr ⟨hk, hget⟩)).keeps_sound h.params hc
    (h.sound (List.getElem_mem hk'))

/-- Settles O3: a step changes no parameter and makes of each codec one of its moves (`step_params`, `step_moves`); every move
keeps a codec sound and the operations in flight apart, and memory stays sound (`step_memSound`). -/
theorem stepKeepsSoundness : Obligations.StepKeepsSoundness := by
  intro s t inv h
  have moves : s.Moves t := step_moves h
  have hp : t.params = s.params := step_params h
  have sound : ∀ c ∈ t.codecs, c.Sound t.params := fun c hc => hp ▸ moves.keeps_sound inv hc
  exact
    { params := hp ▸ inv.params
      instances := moves.count ▸ inv.instances
      mem := (State.memSound_iff t).mpr (hp ▸ step_memSound inv.mem h)
      fits := fun c hc => (sound c hc).fits
      inFlight := fun c hc => (sound c hc).inFlight
      legal := fun c hc => (sound c hc).legal
      noConflict := moves.noConflict inv.noConflict }

end Sys2Proof.Machine
end

section
/-! PROOFS. An operation reads and writes inside its footprint (20_memory.md R58): from memories alike on its read set it gives
the same answer and writes the same bytes, inside its write set. From it, operations on distinct buffers commute (R63). -/
namespace Sys2Proof.Machine

/-! ### Rows of bytes -/

/-- A row of bytes as a region. -/
def rowAt (base : Nat) (vs : List Byte) : Region := { base := base, len := vs.length }

theorem rowAt_has_iff (base : Nat) (vs : List Byte) (a : Nat) :
    (rowAt base vs).has a = true ↔ base ≤ a ∧ a < base + vs.length := Region.has_iff ..

theorem not_rowAt_nil_has (base a : Nat) : ¬ (rowAt base []).has a = true := by
  simp [rowAt_has_iff]

/-- Regions inside regions that share no address share none. -/
theorem Region.not_meets_of_inside {r r' q q' : Region} (hr : ∀ a, r.has a = true → r'.has a = true)
    (hq : ∀ a, q.has a = true → q'.has a = true) (apart : r'.meets q' = false) : r.meets q = false := by
  by_contra h
  obtain ⟨a, har, haq⟩ := (Region.meets_iff r q).mp (by simpa using h)
  exact absurd ((Region.meets_iff r' q').mpr ⟨a, hr a har, hq a haq⟩) (by simp [apart])

theorem Memory.read_writeBytes_has {m : Memory} (h : Memory.wf m = true) (base : Nat) (vs : List Byte) (a : Nat) :
    Memory.read (Memory.writeBytes m base vs) a =
      if (rowAt base vs).has a then vs.getD (a - base) Config.unlistedByte else Memory.read m a := by
  rw [Memory.read_writeBytes h]
  by_cases below : base ≤ a
  · by_cases inside : a < base + vs.length
    · have hi : a - base < vs.length := by omega
      simp [rowAt, Region.has, below, inside, List.getElem?_eq_getElem hi]
    · have hi : vs.length ≤ a - base := by omega
      simp [rowAt, Region.has, below, inside, List.getElem?_eq_none hi]
  · simp [rowAt, Region.has, below]

/-- Rows that share no address can be written in either order. -/
theorem Memory.writeBytes_comm {m : Memory} (h : Memory.wf m = true) {b b' : Nat} {vs vs' : List Byte}
    (apart : (rowAt b vs).meets (rowAt b' vs') = false) (a : Nat) :
    Memory.read (Memory.writeBytes (Memory.writeBytes m b vs) b' vs') a
      = Memory.read (Memory.writeBytes (Memory.writeBytes m b' vs') b vs) a := by
  rw [Memory.read_writeBytes_has (Memory.wf_writeBytes h b vs), Memory.read_writeBytes_has h,
    Memory.read_writeBytes_has (Memory.wf_writeBytes h b' vs'), Memory.read_writeBytes_has h]
  cases hb : (rowAt b vs).has a with
  | true => simp [Region.not_both apart hb]
  | false => simp

/-! ### Operands of an operation that lacks none (30_encoding.md R80) -/

theorem Codec.read_ne_none {c : Codec} {i : Instr} (h : c.firstUnwritten i = none) {r : Reg} (hr : r ∈ opReads i) :
    c.read r ≠ none := by
  simpa using List.find?_eq_none.mp h r hr

theorem exists_some_of_map {α β : Type} {f : α → β} {v : Option α} (h : v.map f ≠ none) : ∃ x, v = some x :=
  Option.ne_none_iff_exists'.mp (Option.map_eq_none_iff.not.mp h)

theorem Codec.exists_holdsInput {c : Codec} {i : Instr} (hi : opReads i = [.aBase, .aLen]) (h : c.firstUnwritten i = none) :
    ∃ base n, c.HoldsInput base n := by
  obtain ⟨base, hb⟩ := Option.ne_none_iff_exists'.mp (c.read_ne_none h (r := .aBase) (by simp [hi]))
  obtain ⟨n, hn⟩ := Option.ne_none_iff_exists'.mp (c.read_ne_none h (r := .aLen) (by simp [hi]))
  exact ⟨base, n, hb, hn⟩

theorem Codec.exists_holdsEncode {c : Codec} (h : c.firstUnwritten .encode = none) : ∃ e, c.HoldsEncode e := by
  have nat : ∀ r ∈ opReads .encode, ∃ x, c.read r = some x := fun r hr =>
    Option.ne_none_iff_exists'.mp (Codec.read_ne_none h hr)
  obtain ⟨dbase, h1⟩ := nat .dBase (by decide)
  obtain ⟨cap, h2⟩ := nat .dCap (by decide)
  obtain ⟨ver, h3⟩ := exists_some_of_map (Codec.read_ne_none h (r := .iVer) (by decide))
  obtain ⟨dst, h4⟩ := exists_some_of_map (Codec.read_ne_none h (r := .iDst) (by decide))
  obtain ⟨src, h5⟩ := exists_some_of_map (Codec.read_ne_none h (r := .iSrc) (by decide))
  obtain ⟨type, h6⟩ := exists_some_of_map (Codec.read_ne_none h (r := .iType) (by decide))
  obtain ⟨cmdId, h7⟩ := exists_some_of_map (Codec.read_ne_none h (r := .iCmdId) (by decide))
  obtain ⟨seq, h8⟩ := exists_some_of_map (Codec.read_ne_none h (r := .iSeq) (by decide))
  obtain ⟨last, h9⟩ := exists_some_of_map (Codec.read_ne_none h (r := .iLast) (by decide))
  obtain ⟨pbase, h10⟩ := nat .iPBase (by decide)
  obtain ⟨plen, h11⟩ := nat .iPLen (by decide)
  exact ⟨{ dbase, cap, ver, dst, src, type, cmdId, seq, last, pbase, plen }, h1, h2, h3, h4, h5, h6, h7, h8, h9, h10, h11⟩

/-! ### The same answer from memories alike on the read set -/

/-- Two ends of one operation, from the memories `m` and `m'`: of the same kind, and with results, the same ones and the same row
of bytes written, inside the region. -/
inductive EndAlike (wr : Region) (m m' : Memory) : OpEnd → OpEnd → Prop
  | done (resp : RespRegs) (base : Nat) (vs : List Byte) (inside : ∀ a, (rowAt base vs).has a = true → wr.has a = true) :
    EndAlike wr m m' (.done resp (Memory.writeBytes m base vs)) (.done resp (Memory.writeBytes m' base vs))
  | raised (e : ErrorKind) : EndAlike wr m m' (.raised e) (.raised e)
  | faulted (f : ModelFault) : EndAlike wr m m' (.faulted f) (.faulted f)
  | refused (r : Request) : EndAlike wr m m' (.refused r) (.refused r)

/-- Results that leave memory as it is. -/
theorem EndAlike.unwritten {wr : Region} {m m' : Memory} (resp : RespRegs) :
    EndAlike wr m m' (.done resp m) (.done resp m') :=
  .done resp 0 [] fun a ha => absurd ha (not_rowAt_nil_has 0 a)

theorem EndAlike.reading {wr : Region} {m m' : Memory} {α : Type} {r : Reg} {v : Option α} {rest rest' : α → OpEnd}
    (h : ∀ x, EndAlike wr m m' (rest x) (rest' x)) : EndAlike wr m m' (reading r v rest) (Machine.reading r v rest') := by
  cases v with
  | none => exact .faulted _
  | some x => exact h x

section Alike
variable (p : Params) {c : Codec} {m m' : Memory}

/-- Memories alike on a region hold the same buffer inside it. -/
theorem Memory.AgreeOn.buf_eq {r : Region} (agree : Memory.AgreeOn r m m') {base n : Nat}
    (inside : ∀ i, i < n → r.has (base + i) = true) : Memory.buf m' base n = Memory.buf m base n :=
  Memory.buf_congr fun i hi => agree _ (inside i hi)

theorem crc16Op_alike (written : c.firstUnwritten .crc16 = none)
    (agree : Memory.AgreeOn (footprint .crc16 c.req).rd m m') (wr : Region) :
    EndAlike wr m m' (crc16Op p c.req m) (crc16Op p c.req m') := by
  obtain ⟨base, n, hb, hn⟩ := Codec.exists_holdsInput rfl written
  have hbuf : Memory.buf m' base n = Memory.buf m base n := by
    refine agree.buf_eq fun i hi => ?_
    simp [footprint, ReqRegs.input, hb, hn, Region.has, hi]
  rw [crc16Op_eq hb hn, crc16Op_eq hb hn, hbuf]
  split
  · exact .unwritten _
  · exact .refused _

theorem frameOp_alike (q : ReqRegs) (wr : Region) : EndAlike wr m m' (frameOp p q m) (frameOp p q m') := by
  refine .reading fun n => ?_
  split
  · exact .raised _
  exact .reading fun ver => .reading fun dst => .reading fun src => .reading fun type => .reading fun cmdId =>
    .reading fun seq => .reading fun last => .reading fun pbase => .unwritten _

/-- ENCODE reads the payload and writes its frame, both inside its footprint. -/
theorem encodeOp_alike (written : c.firstUnwritten .encode = none)
    (agree : Memory.AgreeOn (footprint .encode c.req).rd m m') :
    EndAlike (footprint .encode c.req).wr m m' (encodeOp p c.req m) (encodeOp p c.req m') := by
  obtain ⟨e, he⟩ := Codec.exists_holdsEncode written
  rw [encodeOp_eq he, encodeOp_eq he]
  split
  · exact .raised _
  next short =>
  split
  · exact .refused _
  split
  · exact .raised _
  next room =>
  split
  · exact .faulted _
  have hl : min e.plen 255 = e.plen := by omega
  have hbuf : Memory.buf m' e.pbase e.plen = Memory.buf m e.pbase e.plen := by
    refine agree.buf_eq fun i hi => ?_
    simp [footprint, he.pbase, he.plen, Region.has, hl, hi]
  rw [hbuf]
  refine .done _ _ _ fun a ha => ?_
  simp only [rowAt, frameBytes_length, EncodeArgs.header_length, Memory.buf_length, Region.has_iff] at ha
  simp only [footprint, he.dbase, he.cap, he.plen, Region.has_iff, Option.getD_some, maxPayload_eq, totalSize_eq, hl]
  omega

/-- DECODE reads inside the first 266 bytes of its buffer, since a length byte is at most 255 (42_decoder.md R150). -/
theorem decodeOp_alike (written : c.firstUnwritten .decode = none)
    (agree : Memory.AgreeOn (footprint .decode c.req).rd m m') (wr : Region) :
    EndAlike wr m m' (decodeOp p c.req m) (decodeOp p c.req m') := by
  obtain ⟨base, n, hb, hn⟩ := Codec.exists_holdsInput rfl written
  have byte : ∀ i, i < n → i < 266 → Memory.read m' (base + i) = Memory.read m (base + i) := fun i hi hmax => by
    refine agree _ ?_
    simp [footprint, hb, hn, Region.has, hi, hmax]
  rw [decodeOp_eq hb hn, decodeOp_eq hb hn]
  split
  · exact .refused _
  split
  · exact .raised _
  next long =>
  rw [show Memory.read m' base = Memory.read m base from byte 0 (by omega) (by omega), byte 8 (by omega) (by omega)]
  split
  · exact .raised _
  generalize hl : (Memory.read m (base + 8)).toNat = l
  have short : l < 256 := hl ▸ (Memory.read m (base + 8)).isLt
  split
  · exact .raised _
  next room =>
  have frame : ∀ i, i < 11 + l → Memory.read m' (base + i) = Memory.read m (base + i) := fun i hi =>
    byte i (by omega) (by omega)
  have hbuf : Memory.buf m' (base + 1) (8 + l) = Memory.buf m (base + 1) (8 + l) :=
    Memory.buf_congr fun i hi => by simpa only [Nat.add_assoc] using frame (1 + i) (by omega)
  have hcrc : receivedCrc m' base l = receivedCrc m base l := by
    simp only [receivedCrc, Nat.add_assoc, frame (9 + l) (by omega), frame (10 + l) (by omega)]
  have hregs : decodedRegs p m' base l = decodedRegs p m base l := by
    simp only [decodedRegs, frame 1 (by omega), frame 2 (by omega), frame 3 (by omega), frame 4 (by omega),
      frame 5 (by omega), frame 6 (by omega), frame 7 (by omega)]
  rw [hbuf, hcrc, hregs]
  split
  · exact .raised _
  · exact .unwritten _

/-- Every operation stays inside its footprint (20_memory.md R58). -/
theorem opRule_alike {i : Instr} (written : c.firstUnwritten i = none) (agree : Memory.AgreeOn (footprint i c.req).rd m m') :
    EndAlike (footprint i c.req).wr m m' (opRule i p c.req m) (opRule i p c.req m') := by
  cases i with
  | crc16 => exact crc16Op_alike p written agree _
  | frame => exact frameOp_alike p c.req _
  | encode => exact encodeOp_alike p written agree
  | decode => exact decodeOp_alike p written agree _

end Alike

section EndAlike
variable {wr : Region} {m m' : Memory} {o o' : OpEnd}

/-- Alike ends leave a codec the same. -/
theorem EndAlike.ended_eq (h : EndAlike wr m m' o o') (c : Codec) : c.ended o' = c.ended o := by
  cases h <;> rfl

/-- Alike ends write one row of bytes, perhaps none, inside the region. -/
theorem EndAlike.endMem_eq (h : EndAlike wr m m' o o') :
    ∃ base vs, (∀ a, (rowAt base vs).has a = true → wr.has a = true) ∧
      endMem m o = Memory.writeBytes m base vs ∧ endMem m' o' = Memory.writeBytes m' base vs := by
  cases h with
  | done resp base vs inside => exact ⟨base, vs, inside, rfl, rfl⟩
  | raised | faulted | refused => exact ⟨0, [], fun a ha => absurd ha (not_rowAt_nil_has 0 a), rfl, rfl⟩

end EndAlike

/-- An operation leaves every byte outside its write set. -/
theorem endMem_agreeOutside {c : Codec} {i : Instr} {m : Memory} (p : Params) (hm : Memory.wf m = true)
    (written : c.firstUnwritten i = none) :
    Memory.AgreeOutside (footprint i c.req).wr m (endMem m (opRule i p c.req m)) := by
  intro a outside
  obtain ⟨base, vs, inside, h, -⟩ := (opRule_alike p (m' := m) written fun _ _ => rfl).endMem_eq
  rw [h, Memory.read_writeBytes_has hm, if_neg fun ha => by simp [inside a ha] at outside]

/-! ### Two operations in flight -/

/-- The operation a codec is busy with under the invariant: it lacks no operand, and has the footprint its registers give. -/
theorem State.Inv.busy {s : State} (inv : s.Inv) {k : Nat} {c : Codec} (hc : s.codecs[k]? = some c) {i : Instr}
    {fp : Footprint} (phase : c.phase = .busy (encode i) fp) :
    c.firstUnwritten i = none ∧ c.inFlight = some (footprint i c.req) := by
  obtain ⟨i', decoded, -, written, hfp⟩ := inv.inFlight c (List.mem_of_getElem? hc) _ _ phase
  cases ((decode_ok_iff _ i).mpr rfl).symm.trans decoded
  exact ⟨written, by rw [Codec.inFlight, phase, hfp]⟩

theorem Footprint.writes_apart {f g : Footprint} (apart : f.conflicts g = false) : f.wr.meets g.wr = false := by
  simp only [Footprint.conflicts, Bool.or_eq_false_iff] at apart
  obtain ⟨⟨-, wr_wr⟩, -⟩ := apart
  exact wr_wr

theorem Footprint.write_read_apart {f g : Footprint} (apart : f.conflicts g = false) : f.wr.meets g.rd = false := by
  simp only [Footprint.conflicts, Bool.or_eq_false_iff] at apart
  obtain ⟨⟨wr_rd, -⟩, -⟩ := apart
  exact wr_rd

/-- The end of one operation leaves the read set of another one in flight. -/
theorem agreeOn_after {f g : Footprint} (apart : f.conflicts g = false) {m m' : Memory}
    (outside : Memory.AgreeOutside f.wr m m') : Memory.AgreeOn g.rd m m' := by
  intro a ha
  have apart' : g.rd.meets f.wr = false := Region.meets_comm .. ▸ Footprint.write_read_apart apart
  exact outside a (Region.not_both apart' ha)

theorem exec_activate {s t : State} {k : Nat} {c : Codec} {i : Instr} (hc : s.codecs[k]? = some c)
    (h : exec i (s.activate k) = .next t) :
    t.codecs = s.codecs.set k (c.ended (opRule i s.params c.req s.mem)) ∧
      t.mem = endMem s.mem (opRule i s.params c.req s.mem) ∧ t.params = s.params := by
  obtain ⟨d, hd, rfl⟩ := exec_next h
  cases hc.symm.trans hd
  exact ⟨State.finish_codecs (s.activate k) _ hc, State.finish_mem .., State.finish_params ..⟩

/-- Settles O41: neither operation writes what the other reads, so each answers as it would alone (`opRule_alike`), and the rows
of bytes they write share no address. -/
theorem independentOperationsCommute : Obligations.IndependentOperationsCommute := by
  intro s tj tjk tk tkj j k cj ck fj fk ij ik inv hjk hj hk phasej phasek hexecj hexecjk hexeck hexeckj
  obtain ⟨writtenj, flightj⟩ := inv.busy hj phasej
  obtain ⟨writtenk, flightk⟩ := inv.busy hk phasek
  have apart : (footprint ij cj.req).conflicts (footprint ik ck.req) = false :=
    inv.noConflict j k hjk cj ck hj hk _ _ flightj flightk
  have hm : Memory.wf s.mem = true := inv.mem.1
  obtain ⟨codecsj, memj, paramsj⟩ := exec_activate hj hexecj
  obtain ⟨codecsk, memk, paramsk⟩ := exec_activate hk hexeck
  have hk' : tj.codecs[k]? = some ck := by rw [codecsj, List.getElem?_set_ne hjk, hk]
  have hj' : tk.codecs[j]? = some cj := by rw [codecsk, List.getElem?_set_ne hjk.symm, hj]
  obtain ⟨codecsjk, memjk, -⟩ := exec_activate hk' hexecjk
  obtain ⟨codecskj, memkj, -⟩ := exec_activate hj' hexeckj
  have alikek := opRule_alike s.params writtenk
    (agreeOn_after apart (memj ▸ endMem_agreeOutside s.params hm writtenj))
  have alikej := opRule_alike s.params writtenj
    (agreeOn_after (Footprint.conflicts_comm .. ▸ apart) (memk ▸ endMem_agreeOutside s.params hm writtenk))
  constructor
  · rw [codecsjk, codecskj, codecsj, codecsk, paramsj, paramsk, alikek.ended_eq, alikej.ended_eq, List.set_comm _ _ hjk]
  · intro a
    obtain ⟨bk, vk, insidek, hmemk, hmemjk⟩ := alikek.endMem_eq
    obtain ⟨bj, vj, insidej, hmemj, hmemkj⟩ := alikej.endMem_eq
    rw [memjk, memkj, paramsj, paramsk, hmemjk, hmemkj, memj, memk, hmemj, hmemk]
    exact Memory.writeBytes_comm hm (Region.not_meets_of_inside insidej insidek (Footprint.writes_apart apart)) a

end Sys2Proof.Machine
end

section
/-! PROOFS. Caller memory (20_memory.md R50, R52): a canonical list is determined by what it reads as, since its first cell is
the lowest address that reads as other than an unlisted one. -/
namespace Sys2Proof.Machine

section Canonical
variable {lo a : Nat} {v : Byte} {m m' rest : Memory}

theorem Memory.wfFrom_cons :
    Memory.wfFrom lo ((a, v) :: rest) = true ↔ lo ≤ a ∧ v ≠ Config.unlistedByte ∧ Memory.wfFrom (a + 1) rest = true := by
  simp [Memory.wfFrom, and_assoc]

theorem Memory.read_head : Memory.read ((a, v) :: rest) a = v := if_pos rfl

theorem Memory.read_tail {x : Nat} (h : x ≠ a) : Memory.read ((a, v) :: rest) x = Memory.read rest x := if_neg h

/-- The address of a list's first cell is listed in every memory that reads alike, so it is none below that memory's cells. -/
theorem Memory.le_of_alike (h : Memory.wfFrom lo ((a, v) :: rest) = true) {lo' : Nat} (h' : Memory.wfFrom lo' m' = true)
    (alike : ∀ x, Memory.read ((a, v) :: rest) x = Memory.read m' x) : lo' ≤ a := by
  obtain ⟨-, listed, -⟩ := Memory.wfFrom_cons.mp h
  by_contra below
  have unlisted := Memory.read_below h' (Nat.lt_of_not_le below)
  rw [← alike, Memory.read_head] at unlisted
  exact listed unlisted

/-- A list with a cell does not read as the empty one. -/
theorem Memory.not_alike_nil (h : Memory.wfFrom lo ((a, v) :: rest) = true) :
    ¬ ∀ x, Memory.read ((a, v) :: rest) x = Memory.read [] x := fun alike => by
  have := Memory.le_of_alike h (lo' := a + 1) rfl alike
  omega

theorem Memory.eq_of_alike {lo' : Nat} (h : Memory.wfFrom lo m = true) (h' : Memory.wfFrom lo' m' = true)
    (alike : ∀ x, Memory.read m x = Memory.read m' x) : m = m' := by
  induction m generalizing lo lo' m' with
  | nil =>
    cases m' with
    | nil => rfl
    | cons cell' rest' => exact absurd (fun x => (alike x).symm) (Memory.not_alike_nil h')
  | cons cell rest ih =>
    obtain ⟨a, v⟩ := cell
    cases m' with
    | nil => exact absurd alike (Memory.not_alike_nil h)
    | cons cell' rest' =>
      obtain ⟨b, w⟩ := cell'
      obtain ⟨-, listed, tail⟩ := Memory.wfFrom_cons.mp h
      obtain ⟨-, listed', tail'⟩ := Memory.wfFrom_cons.mp h'
      obtain rfl : a = b := by
        have hba : b ≤ a := Memory.le_of_alike h (Memory.wfFrom_cons.mpr ⟨Nat.le_refl b, listed', tail'⟩) alike
        have hab : a ≤ b :=
          Memory.le_of_alike h' (Memory.wfFrom_cons.mpr ⟨Nat.le_refl a, listed, tail⟩) fun x => (alike x).symm
        omega
      obtain rfl : v = w := by simpa only [Memory.read_head] using alike a
      rw [ih tail tail' fun x => ?_]
      by_cases hx : x = a
      · subst hx
        rw [Memory.read_below tail (Nat.lt_succ_self x), Memory.read_below tail' (Nat.lt_succ_self x)]
      · simpa only [Memory.read_tail hx] using alike x

end Canonical

/-- Settles O60: by induction on the cells (`Memory.eq_of_alike`). -/
theorem memoryFormIsCanonical : Obligations.MemoryFormIsCanonical := fun _ _ h h' alike => Memory.eq_of_alike h h' alike

end Sys2Proof.Machine
end

section
/-! PROOFS. The CRC byte step as a bit-serial register (20_memory.md R56, 40_checksum.md R101): after `n` shifts of the byte step,
the register is the bit-serial one with the bits still to come XORed in at the top. -/
namespace Sys2Proof.Machine

/-- The bit-serial register takes in bit `7 - i` of the byte. -/
def crcTakeBit (b : Byte) (x : CrcWord) (i : Nat) : CrcWord :=
  if (x.getLsbD 15 != b.getLsbD (7 - i)) then (x <<< 1) ^^^ crcPoly else x <<< 1

/-- The byte's bits still to come after `n` shifts, at the top of a CRC word. -/
def crcPending (b : Byte) (n : Nat) : CrcWord := b.zeroExtend 16 <<< (8 + n)

theorem crcPending_succ (b : Byte) (n : Nat) : crcPending b (n + 1) = crcPending b n <<< 1 :=
  BitVec.shiftLeft_add (b.zeroExtend 16) (8 + n) 1

theorem crcPending_topBit (b : Byte) {n : Nat} (h : n < 8) : (crcPending b n).getLsbD 15 = b.getLsbD (7 - n) := by
  have index : 15 - (8 + n) = 7 - n := by omega
  simp [crcPending, index]
  omega

/-- After eight shifts no bit is left. -/
theorem crcPending_eight (b : Byte) : crcPending b 8 = 0#16 := BitVec.shiftLeft_eq_zero (Nat.le_refl 16)

/-- A shift takes in the top bit of what is XORed into the register. -/
theorem crcShift_xor_pending (x : CrcWord) (b : Byte) {n : Nat} (h : n < 8) :
    crcShift (x ^^^ crcPending b n) = crcTakeBit b x n ^^^ crcPending b (n + 1) := by
  rw [crcShift, crcTakeBit, BitVec.getLsbD_xor, crcPending_topBit b h, Bool.bne_eq_xor, crcPending_succ,
    BitVec.shiftLeft_xor_distrib]
  cases x.getLsbD 15 ^^ b.getLsbD (7 - n) with
  | false => rfl
  | true =>
    rw [if_pos rfl, if_pos rfl]
    ac_rfl

theorem repeat_crcShift (c : CrcWord) (b : Byte) {n : Nat} (h : n ≤ 8) :
    Nat.repeat crcShift n (c ^^^ crcPending b 0) = (List.range n).foldl (crcTakeBit b) c ^^^ crcPending b n := by
  induction n with
  | zero => rfl
  | succ n ih =>
    rw [Nat.repeat, ih (by omega), crcShift_xor_pending _ b (by omega), List.range_succ, List.foldl_append]
    rfl

/-- Settles O13: at eight shifts no bit is left to come (`repeat_crcShift`). -/
theorem crcUpdateIsBitSerial : Obligations.CrcUpdateIsBitSerial := by
  intro c b
  calc crcUpdate c b
      = (List.range 8).foldl (crcTakeBit b) c ^^^ crcPending b 8 := repeat_crcShift c b (Nat.le_refl 8)
    _ = (List.range 8).foldl (crcTakeBit b) c := by rw [crcPending_eight, BitVec.xor_zero]

end Sys2Proof.Machine
end

section
/-! PROOFS. The host's memory accesses (20_memory.md R52, R53) and the races they run (R58): which codecs a race is recorded on,
and what memory is left. -/
namespace Sys2Proof.Machine

/-! ### Which codecs a race is recorded on (20_memory.md R58) -/

/-- The codec after an access of another agent: the race is recorded if its operation in flight is hit. -/
def Codec.raced (hit : Footprint → Bool) (c : Codec) : Codec := if c.hitBy hit then c.record .race else c

section Raced
variable {hit : Footprint → Bool} {c : Codec}

theorem Codec.hitBy_of_inFlight {fp : Footprint} (h : c.inFlight = some fp) : c.hitBy hit = hit fp := by
  rw [Codec.hitBy, h]

theorem Codec.not_hitBy_iff : c.hitBy hit = false ↔ ∀ fp, c.inFlight = some fp → hit fp = false := by
  cases h : c.inFlight with
  | none => simp [Codec.hitBy, h]
  | some fp => simp [Codec.hitBy_of_inFlight h]

/-- The codec after an access, by its phase. -/
theorem Codec.raced_eq (hit : Footprint → Bool) (c : Codec) :
    c.raced hit =
      match c.phase with
      | .idle => c
      | .busy op fp =>
        if hit fp then { req := c.req, resp := c.resp, phase := .busy op fp, fault := c.fault.or (some .race) } else c := by
  obtain ⟨req, resp, phase, fault⟩ := c
  cases phase with
  | idle => rfl
  | busy op fp => rfl

theorem Codec.raced_of_not_hit (h : c.hitBy hit = false) : c.raced hit = c := by
  simp [Codec.raced, h]

/-- A codec without a fault after an access was not hit by it. -/
theorem Codec.not_hitBy_of_raced_clear (h : (c.raced hit).fault = none) : c.hitBy hit = false := by
  cases hits : c.hitBy hit with
  | false => rfl
  | true => simp [Codec.raced, hits] at h

/-- An access that hits no operation in flight records no race. -/
theorem map_raced_of_no_hit {cs : List Codec} (h : cs.any (Codec.hitBy hit) = false) : cs.map (Codec.raced hit) = cs :=
  (List.map_congr_left fun c hc => Codec.raced_of_not_hit (by simpa using List.any_eq_false.mp h c hc)).trans (List.map_id cs)

theorem getElem?_map_raced {cs : List Codec} {k : Nat} (hc : cs[k]? = some c) :
    (cs.map (Codec.raced hit))[k]? = some (c.raced hit) := by
  rw [List.getElem?_map, hc, Option.map_some]

theorem no_hit_of_forall {cs : List Codec} (h : ∀ c ∈ cs, ∀ fp, c.inFlight = some fp → hit fp = false) :
    cs.any (Codec.hitBy hit) = false :=
  List.any_eq_false.mpr fun c hc => by simp [Codec.not_hitBy_iff.mpr (h c hc)]

end Raced

/-! ### The two accesses -/

@[simp] theorem State.taken_params (s : State) (rest : List HostAction) : (s.taken rest).params = s.params := rfl
@[simp] theorem State.taken_codecs (s : State) (rest : List HostAction) : (s.taken rest).codecs = s.codecs := rfl
@[simp] theorem State.taken_mem (s : State) (rest : List HostAction) : (s.taken rest).mem = s.mem := rfl

section HostMem
variable (s : State) {a : Nat}

theorem State.hostMemWrite_codecs (v : Byte) (inside : a < 2 ^ s.params.addrW) :
    (s.hostMemWrite a v).codecs = s.codecs.map (Codec.raced (·.hitByWrite a)) := by
  rw [State.hostMemWrite, if_neg (Nat.not_le.mpr inside)]
  cases hit : s.codecs.any (Codec.hitBy (·.hitByWrite a)) with
  | true => rfl
  | false => exact (map_raced_of_no_hit hit).symm

/-- A write sets its byte to something, and no other. -/
theorem State.hostMemWrite_mem (v : Byte) (inside : a < 2 ^ s.params.addrW) :
    ∃ w, (s.hostMemWrite a v).mem = Memory.write s.mem a w := by
  rw [State.hostMemWrite, if_neg (Nat.not_le.mpr inside)]
  split
  · exact ⟨_, rfl⟩
  · exact ⟨v, rfl⟩

theorem State.hostMemWrite_alone (v : Byte) (inside : a < 2 ^ s.params.addrW)
    (alone : s.codecs.any (Codec.hitBy (·.hitByWrite a)) = false) :
    s.hostMemWrite a v = { s with mem := Memory.write s.mem a v } := by
  simp [State.hostMemWrite, Nat.not_le.mpr inside, alone]

theorem State.hostMemWrite_past (v : Byte) (past : 2 ^ s.params.addrW ≤ a) :
    s.hostMemWrite a v = s.refuse .regionRange := if_pos past

theorem State.hostMemRead_codecs (inside : a < 2 ^ s.params.addrW) :
    (s.hostMemRead a).codecs = s.codecs.map (Codec.raced (·.hitByRead a)) := by
  rw [State.hostMemRead, if_neg (Nat.not_le.mpr inside)]
  cases hit : s.codecs.any (Codec.hitBy (·.hitByRead a)) with
  | true => rfl
  | false => exact (map_raced_of_no_hit hit).symm

theorem State.hostMemRead_alone (inside : a < 2 ^ s.params.addrW)
    (alone : s.codecs.any (Codec.hitBy (·.hitByRead a)) = false) :
    s.hostMemRead a = { s with returned := some (Memory.read s.mem a).toNat :: s.returned } := by
  simp [State.hostMemRead, Nat.not_le.mpr inside, alone]

theorem State.hostMemRead_past (past : 2 ^ s.params.addrW ≤ a) : s.hostMemRead a = s.refuse .regionRange := if_pos past

end HostMem

section HostTurn
variable {s : State} {a : Nat} {v : Byte} {rest : List HostAction}

theorem State.HostTurn.step_mw (h : s.HostTurn (.mw a v) rest) : step s = .next ((s.taken rest).hostMemWrite a v) := h.step_eq

theorem State.HostTurn.step_mr (h : s.HostTurn (.mr a) rest) : step s = .next ((s.taken rest).hostMemRead a) := h.step_eq

end HostTurn

/-- Settles O49: an access that hits no operation in flight records nothing (`no_hit_of_forall`), and memory reads as written. -/
theorem hostMemoryAccess : Obligations.HostMemoryAccess := by
  intro s a rest inside canonical
  refine ⟨fun v turn apart => ?write, fun turn apart => ?read⟩
  case write =>
    have alone : s.codecs.any (Codec.hitBy (·.hitByWrite a)) = false := no_hit_of_forall fun c hc fp hfp => by
      obtain ⟨rd, wr⟩ := apart c hc fp hfp
      simp [Footprint.hitByWrite, rd, wr]
    refine ⟨_, turn.step_mw, ?_⟩
    rw [State.hostMemWrite_alone (s.taken rest) v inside alone]
    refine ⟨rfl, turn.clear, ?_, fun b hb => ?_⟩
    · exact (Memory.read_write canonical a v a).trans (if_pos rfl)
    · exact (Memory.read_write canonical a v b).trans (if_neg hb)
  case read =>
    have alone : s.codecs.any (Codec.hitBy (·.hitByRead a)) = false := no_hit_of_forall apart
    rw [turn.step_mr, State.hostMemRead_alone (s.taken rest) inside alone]
    rfl

/-- Settles O50: an access inside the address space records the race on every codec whose operation it hits
(`State.hostMemWrite_codecs`, `State.hostMemRead_codecs`). -/
theorem hostMemoryRaceFaults : Obligations.HostMemoryRaceFaults := by
  intro s t a k c rest inside canonical hc h
  refine ⟨fun v turn => ?write, fun turn => ?read⟩
  case write =>
    cases turn.step_mw.symm.trans h
    constructor
    · rw [State.hostMemWrite_codecs (s.taken rest) v inside, State.taken_codecs, getElem?_map_raced hc]
      exact congrArg some (Codec.raced_eq _ c)
    · intro b hb
      obtain ⟨w, hmem⟩ := State.hostMemWrite_mem (s.taken rest) v inside
      rw [hmem]
      exact (Memory.read_write canonical a w b).trans (if_neg hb)
  case read =>
    cases turn.step_mr.symm.trans h
    constructor
    · rw [State.hostMemRead_codecs (s.taken rest) inside, State.taken_codecs, getElem?_map_raced hc]
      exact congrArg some (Codec.raced_eq _ c)
    · exact State.hostMemRead_mem (s.taken rest) a

/-- Settles O51: the address is checked before anything else. -/
theorem hostAddressPastTopIsRefused : Obligations.HostAddressPastTopIsRefused := by
  rintro s a rest past (turn | ⟨v, turn⟩)
  · rw [turn.step_mr, State.hostMemRead_past (s.taken rest) past]
    rfl
  · rw [turn.step_mw, State.hostMemWrite_past (s.taken rest) v past]
    rfl

end Sys2Proof.Machine
end

section
/-! PROOFS. The agent the schedule asks for (20_memory.md R63), and a START that races with an operation in flight (R58,
30_encoding.md R80). -/
namespace Sys2Proof.Machine

/-! ### The agent that moves -/

section Turn
variable {s : State} {k : Nat} {c : Codec} {op : Byte} {fp : Footprint} {i : Instr}

/-- On a codec's turn the step is the COMPLETE of the operation it is busy with (30_encoding.md R80). -/
theorem step_complete (clear : s.refused = none) (turn : s.turn = some (.codec k)) (hc : s.codecs[k]? = some c)
    (phase : c.phase = .busy op fp) (decoded : decode op = .ok i) : step s = exec i (s.activate k) := by
  simp [step, clear, turn, State.fetch_busy hc phase, decoded]

end Turn

/-- Settles O8: the agent asked for has the turn if it can move (`State.turn_of_schedule`). -/
theorem scheduledAgentMoves : Obligations.ScheduledAgentMoves := by
  intro s a rest clear scheduled enabled
  have turn : s.turn = some a := State.turn_of_schedule scheduled enabled
  cases a with
  | host =>
    obtain ⟨x, p, program, -⟩ := State.enabled_host enabled
    have host : s.HostTurn x p := ⟨clear, turn, program⟩
    exact ⟨x, p, program, host.step_eq⟩
  | codec k =>
    obtain ⟨c, op, fp, hc, phase, fault⟩ := State.enabled_codec enabled
    exact ⟨c, op, fp, hc, phase, fault, fun i decoded => step_complete clear turn hc phase decoded⟩

/-! ### START -/

section Start
variable {s : State} {k : Nat} {c : Codec}

/-- A host write of a command byte to CMD is a START (10_state.md R31, 30_encoding.md R80). -/
theorem State.hostWrite_cmd (s : State) (k : Nat) (c : Codec) (op : Byte) :
    s.hostWrite k c Reg.cmd.num op.toNat = s.start k c op := by
  have request : Reg.isRequest .cmd = true := rfl
  have narrow : ¬ 2 ^ Reg.width s.params .cmd ≤ op.toNat := Nat.not_le.mpr op.isLt
  simp [State.hostWrite, request, narrow]

theorem State.HostTurn.step_start {w : HostVal} {rest : List HostAction} {op : Byte}
    (h : s.HostTurn (.hw k Reg.cmd.num w) rest) (carries : s.Carries w op.toNat) (hc : s.codecs[k]? = some c) :
    step s = .next ((s.taken rest).start k c op) := by
  rw [h.step_hw hc carries, State.hostWrite_cmd]

/-- An operation whose registers all hold a value lacks none, CMD written or not: it reads no CMD (10_state.md R22). -/
theorem Codec.firstUnwritten_withCmd {i : Instr} (h : ∀ r ∈ opReads i, c.read r ≠ none) (op : Byte) :
    (c.withCmd op).firstUnwritten i = none := by
  have not_cmd : ∀ r ∈ opReads i, r ≠ .cmd := by cases i <;> decide
  refine List.find?_eq_none.mpr fun r hr => ?_
  rw [Codec.read_withCmd_other c op (not_cmd r hr)]
  simpa using h r hr

theorem Codec.conflictsWith_eq (fp : Footprint) (c : Codec) : c.conflictsWith fp = c.hitBy fp.conflicts := by
  cases h : c.inFlight with
  | none => simp [Codec.conflictsWith, Codec.hitBy, h]
  | some g => simp [Codec.conflictsWith, Codec.hitBy, h]

theorem State.conflictsElsewhere_of {fp g : Footprint} {j : Nat} {d : Codec} (hj : j ≠ k) (hd : s.codecs[j]? = some d)
    (flight : d.inFlight = some g) (conflict : fp.conflicts g = true) : s.conflictsElsewhere k fp = true := by
  refine List.any_eq_true.mpr ⟨d, List.mem_eraseIdx_iff_getElem?.mpr ⟨j, hj, hd⟩, ?_⟩
  rw [Codec.conflictsWith_eq, Codec.hitBy_of_inFlight flight, conflict]

/-- A START with every operand and a conflicting footprint writes CMD and races (20_memory.md R58). -/
theorem State.start_races {i : Instr} (written : (c.withCmd (encode i)).firstUnwritten i = none)
    (conflict : s.conflictsElsewhere k (footprint i c.req) = true) :
    s.start k c (encode i) = (s.setCodec k (c.withCmd (encode i))).raceAtStart k (footprint i c.req) := by
  have decoded : decode (encode i) = .ok i := (decode_ok_iff _ i).mpr rfl
  obtain ⟨v, refused, -⟩ | ⟨i', decoded', ⟨r, lacks, -⟩ | ⟨-, -, h⟩ | ⟨-, alone, -⟩⟩ := start_cases s k c (encode i)
  · cases decoded.symm.trans refused
  all_goals cases decoded.symm.trans decoded'
  · cases written.symm.trans lacks
  · exact h
  · cases conflict.symm.trans alone

/-- A race at START is recorded on the starting codec. -/
theorem State.raceAtStart_self (hc : s.codecs[k]? = some c) (fp : Footprint) :
    (s.raceAtStart k fp).codecs[k]? = some (c.record .race) := by
  simp [hc]

/-- A race at START is recorded on another codec exactly if its operation in flight conflicts. -/
theorem State.raceAtStart_other {j : Nat} (hj : j ≠ k) (hc : s.codecs[j]? = some c) (fp : Footprint) :
    (s.raceAtStart k fp).codecs[j]? = some (c.raced fp.conflicts) := by
  simp [hc, hj, Codec.raced, Codec.conflictsWith_eq]

end Start

/-- Settles O48: the START races (`State.start_races`), and who records it. -/
theorem startRaceFaultsBoth : Obligations.StartRaceFaultsBoth := by
  intro s k j c d f i w rest turn carries hc written hj hd flight conflict
  have races := State.start_races (s := s.taken rest) (Codec.firstUnwritten_withCmd written (encode i))
    (State.conflictsElsewhere_of hj hd flight conflict)
  have starting : ((s.taken rest).setCodec k (c.withCmd (encode i))).codecs[k]? = some (c.withCmd (encode i)) :=
    List.getElem?_set_self (List.getElem?_eq_some_iff.mp hc).1
  refine ⟨_, (turn.step_start carries hc).trans (congrArg _ races), rfl, ?_, fun x y hx hy => ?_⟩
  · rw [State.raceAtStart_self starting, Codec.record, Codec.withCmd, (turn.free rfl hc).2, Option.none_or]
  · have other : ((s.taken rest).setCodec k (c.withCmd (encode i))).codecs[x]? = some y :=
      (List.getElem?_set_ne hx.symm).trans hy
    rw [State.raceAtStart_other hx other]
    exact congrArg some (Codec.raced_eq _ y)

end Sys2Proof.Machine
end

section
/-! PROOFS. What an operation does inside its footprint (20_memory.md R51, R58, R60, R63): an ENCODE with results writes its
whole write set, away from its read set. From it, the runs from memories alike on the read set agree on the write set, an
operation run again answers the same, and no byte of a footprint in flight changes unnoticed. -/
namespace Sys2Proof.Machine

/-- Settles O26: CRC16 and DECODE check their region first, ENCODE its two after the payload length (60_exceptions.md R183). -/
theorem illegalRegionIsRefused : Obligations.IllegalRegionIsRefused := by
  intro s c hc
  refine ⟨fun base n ⟨hb, hn⟩ past => ?input, fun e he short past => ?encode⟩
  case input =>
    have illegal : ¬ base + n ≤ 2 ^ s.params.addrW := Nat.not_le.mpr past
    constructor
    · rw [exec_of_active _ hc, opRule, crc16Op_eq hb hn, if_neg illegal]
      rfl
    · rw [exec_of_active _ hc, opRule, decodeOp_eq hb hn, if_pos illegal]
      rfl
  case encode =>
    rw [exec_of_active _ hc, opRule, encodeOp_eq he, if_neg (Nat.not_lt.mpr short), if_pos (by omega)]
    rfl

/-! ### An ENCODE with results -/

section Encode
variable {p : Params} {c : Codec} {e : EncodeArgs} {m m' n : Memory} {resp : RespRegs}

/-- The footprint of an ENCODE that passes its checks is its payload and its frame. -/
theorem Codec.HoldsEncode.footprint (he : c.HoldsEncode e) (passes : e.Passes p) :
    Machine.footprint .encode c.req = { rd := e.payload, wr := e.target } := by
  simp [Machine.footprint, he.pbase, he.plen, he.dbase, he.cap, Nat.min_eq_left passes.plen, Nat.min_eq_right passes.room,
    EncodeArgs.payload, EncodeArgs.target]

theorem encodeOp_passes (he : c.HoldsEncode e) (passes : e.Passes p) :
    encodeOp p c.req m =
      .done { status := some statusOk, written := some (truncReg p .written (11 + e.plen)) }
        (Memory.writeBytes m e.dbase (frameBytes e.header (Memory.buf m e.pbase e.plen))) := by
  rw [encodeOp_eq he, if_neg (Nat.not_lt.mpr passes.plen), if_neg (not_not.mpr ⟨passes.payload, passes.dest⟩),
    if_neg (Nat.not_lt.mpr passes.room), if_neg (by simp [passes.apart])]

theorem EncodeArgs.rowAt_frame (e : EncodeArgs) (m : Memory) :
    rowAt e.dbase (frameBytes e.header (Memory.buf m e.pbase e.plen)) = e.target := by
  simp only [rowAt, frameBytes_length, EncodeArgs.header_length, Memory.buf_length, EncodeArgs.target]
  congr 1
  omega

/-- An ENCODE with results writes one row of bytes, its whole write set; and it gives the same results and writes the same row
from every memory alike on its read set, which lies apart. -/
theorem encodeOp_done_row (h : encodeOp p c.req m = .done resp n) :
    ∃ base vs, rowAt base vs = (footprint .encode c.req).wr ∧
      (footprint .encode c.req).rd.meets (rowAt base vs) = false ∧ n = Memory.writeBytes m base vs ∧
      ∀ m', Memory.AgreeOn (footprint .encode c.req).rd m m' →
        encodeOp p c.req m' = .done resp (Memory.writeBytes m' base vs) := by
  obtain ⟨e, he, passes, rfl, rfl⟩ := encodeOp_done h
  rw [he.footprint passes]
  refine ⟨_, _, e.rowAt_frame m, by simpa only [e.rowAt_frame m] using passes.apart, rfl, fun m' agree => ?_⟩
  have payload : Memory.buf m' e.pbase e.plen = Memory.buf m e.pbase e.plen :=
    agree.buf_eq fun i hi => by simp [EncodeArgs.payload, Region.has, hi]
  rw [encodeOp_passes he passes, payload]

/-- A row of bytes reads as written, whatever memory it is written into. -/
theorem Memory.agreeOn_writeBytes (hm : Memory.wf m = true) (hm' : Memory.wf m' = true) (base : Nat) (vs : List Byte) :
    Memory.AgreeOn (rowAt base vs) (Memory.writeBytes m base vs) (Memory.writeBytes m' base vs) := by
  intro a ha
  rw [Memory.read_writeBytes_has hm, Memory.read_writeBytes_has hm', if_pos ha, if_pos ha]

theorem Memory.agreeOutside_writeBytes (hm : Memory.wf m = true) (base : Nat) (vs : List Byte) :
    Memory.AgreeOutside (rowAt base vs) m (Memory.writeBytes m base vs) := by
  intro a ha
  rw [Memory.read_writeBytes_has hm, if_neg (by simp [ha])]

end Encode

/-! ### Two runs of an operation -/

section Runs
variable {p : Params} {c : Codec} {i : Instr} {m m' n : Memory} {resp : RespRegs}

/-- From memories alike on its read set an operation leaves both as they were, or writes its whole write set alike. -/
theorem opRule_writes_alike (hm : Memory.wf m = true) (hm' : Memory.wf m' = true) (written : c.firstUnwritten i = none)
    (agree : Memory.AgreeOn (footprint i c.req).rd m m') :
    (endMem m (opRule i p c.req m) = m ∧ endMem m' (opRule i p c.req m') = m') ∨
      Memory.AgreeOn (footprint i c.req).wr (endMem m (opRule i p c.req m)) (endMem m' (opRule i p c.req m')) := by
  by_cases hi : i = .encode
  case neg => exact .inl ⟨endMem_opRule hi p c.req m, endMem_opRule hi p c.req m'⟩
  subst hi
  have alike := opRule_alike p written agree
  cases h : opRule .encode p c.req m with
  | done resp n =>
    obtain ⟨base, vs, row, -, rfl, again⟩ := encodeOp_done_row h
    rw [show opRule .encode p c.req m' = _ from again m' agree, ← row]
    exact .inr (Memory.agreeOn_writeBytes hm hm' base vs)
  | raised | faulted | refused =>
    rw [h] at alike
    generalize opRule .encode p c.req m' = o' at alike
    cases alike
    exact .inl ⟨rfl, rfl⟩

/-- Run again on the memory its results left, an operation gives the same results and leaves memory as it is (20_memory.md R60). -/
theorem opRule_done_again (hm : Memory.wf m = true) (h : opRule i p c.req m = .done resp n) :
    ∃ n', opRule i p c.req n = .done resp n' ∧ ∀ a, Memory.read n' a = Memory.read n a := by
  by_cases hi : i = .encode
  case neg =>
    obtain rfl := opRule_done_mem hi h
    exact ⟨n, h, fun _ => rfl⟩
  subst hi
  obtain ⟨base, vs, -, apart, rfl, again⟩ := encodeOp_done_row h
  refine ⟨_, again _ fun a ha => Memory.agreeOutside_writeBytes hm base vs a (Region.not_both apart ha), fun a => ?_⟩
  rw [Memory.read_writeBytes_has (Memory.wf_writeBytes hm base vs)]
  split
  · next inside => rw [Memory.read_writeBytes_has hm, if_pos inside]
  · rfl

end Runs

/-- Alike ends set the same mark, if any. -/
theorem EndAlike.finish_refused {wr : Region} {m m' : Memory} {o o' : OpEnd} (h : EndAlike wr m m' o o') (s : State) (k : Nat)
    (c : Codec) : (State.finish { s with mem := m' } k c o').refused = (s.finish k c o).refused := by
  cases h <;> rfl

/-- Settles O40: the two runs end alike (`opRule_alike`), each inside the write set (`endMem_agreeOutside`), which is written
whole or not at all (`opRule_writes_alike`). -/
theorem footprintCoversAccesses : Obligations.FootprintCoversAccesses := by
  intro i s m c hc written hs agree
  have alike := opRule_alike s.params written agree
  have hc' : ({ s with mem := m } : State).codecs[s.active]? = some c := hc
  refine ⟨_, _, exec_of_active i hc, exec_of_active i hc', ?_, alike.finish_refused s _ c, ?_, fun hm => ⟨?_, ?_⟩⟩
  · rw [State.finish_codecs _ _ hc, State.finish_codecs _ _ hc', alike.ended_eq]
  · rw [State.finish_mem]
    exact endMem_agreeOutside s.params hs written
  · rw [State.finish_mem]
    exact endMem_agreeOutside s.params hm written
  · rw [State.finish_mem, State.finish_mem]
    obtain ⟨hold, hold'⟩ | same := opRule_writes_alike (p := s.params) hs hm written agree
    · exact .inl fun a => ⟨congrArg (Memory.read · a) hold, congrArg (Memory.read · a) hold'⟩
    · exact .inr same

/-! ### The same operation again -/

/-- An end after which a busy codec is idle is its results or an error. -/
theorem Codec.ended_completed {c : Codec} {o : OpEnd} (busy : c.isBusy = true) (idle : (c.ended o).isBusy = false) :
    (∃ resp m, o = .done resp m) ∨ ∃ e, o = .raised e := by
  cases o with
  | done resp m => exact .inl ⟨resp, m, rfl⟩
  | raised e => exact .inr ⟨e, rfl⟩
  | faulted f => cases busy.symm.trans idle
  | refused r => cases busy.symm.trans idle

/-- An end that leaves its codec as it is leaves all of them. -/
theorem State.finish_codecs_of_ended {s : State} {k : Nat} {c : Codec} {o : OpEnd} (hc : s.codecs[k]? = some c)
    (same : c.ended o = c) : (s.finish k c o).codecs = s.codecs := by
  obtain ⟨hk, rfl⟩ := List.getElem?_eq_some_iff.mp hc
  rw [State.finish_codecs s o hc, same, List.set_getElem_self]

/-- Settles O39: an error left memory as it was, so it is raised again; results are given again (`opRule_done_again`). -/
theorem operationsAreIdempotent : Obligations.OperationsAreIdempotent := by
  intro i s t c c' hc busy hm h hc' idle
  obtain ⟨d, hd, rfl⟩ := exec_next h
  cases hc.symm.trans hd
  generalize ho : opRule i s.params c.req s.mem = o at hc' h ⊢
  cases (State.finish_self s _ c o hc).symm.trans hc'
  have rerun := exec_of_active i (s := s.finish s.active c o) (by rwa [State.finish_active])
  rw [State.finish_active, State.finish_params, State.finish_mem, Codec.ended_req] at rerun
  refine ⟨_, rerun, ?_⟩
  obtain ⟨resp, n, rfl⟩ | ⟨e, rfl⟩ := Codec.ended_completed busy idle
  · obtain ⟨n', again, same⟩ := opRule_done_again hm ho
    rw [show endMem s.mem (.done resp n) = n from rfl, again]
    exact ⟨State.finish_codecs_of_ended hc' rfl, same⟩
  · rw [show endMem s.mem (.raised e) = s.mem from rfl, ho]
    exact ⟨State.finish_codecs_of_ended hc' rfl, fun _ => rfl⟩

/-! ### Bytes of a footprint in flight -/

theorem Footprint.hitByWrite_iff (f : Footprint) (a : Nat) : f.hitByWrite a = true ↔ f.rd.has a = true ∨ f.wr.has a = true := by
  simp [Footprint.hitByWrite]

/-- A host write that leaves no fault on a codec leaves the bytes of its footprint. -/
theorem State.hostMemWrite_keeps {s : State} (hm : Memory.wf s.mem = true) {x a k : Nat} {v : Byte} {c c' : Codec}
    {fp : Footprint} (hc : s.codecs[k]? = some c) (flight : c.inFlight = some fp)
    (hc' : (s.hostMemWrite x v).codecs[k]? = some c') (clear : c'.fault = none) (ha : fp.hitByWrite a = true) :
    Memory.read (s.hostMemWrite x v).mem a = Memory.read s.mem a := by
  by_cases past : 2 ^ s.params.addrW ≤ x
  · rw [State.hostMemWrite_past s v past, State.refuse_mem]
  have inside : x < 2 ^ s.params.addrW := Nat.lt_of_not_le past
  rw [State.hostMemWrite_codecs s v inside, getElem?_map_raced hc] at hc'
  cases hc'
  have missed : fp.hitByWrite x = false := Codec.not_hitBy_iff.mp (Codec.not_hitBy_of_raced_clear clear) fp flight
  have other : a ≠ x := by
    rintro rfl
    cases ha.symm.trans missed
  obtain ⟨w, hmem⟩ := State.hostMemWrite_mem s v inside
  rw [hmem, Memory.read_write hm, if_neg other]

/-- A host action that leaves no fault on a codec leaves the bytes of its footprint. -/
theorem State.hostAct_keeps {s t : State} (hm : Memory.wf s.mem = true) {act : HostAction} (h : s.hostAct act = .next t)
    {a k : Nat} {c c' : Codec} {fp : Footprint} (hc : s.codecs[k]? = some c) (flight : c.inFlight = some fp)
    (hc' : t.codecs[k]? = some c') (clear : c'.fault = none) (ha : fp.hitByWrite a = true) :
    Memory.read t.mem a = Memory.read s.mem a := by
  obtain ⟨k, n, v, c, x, -, -, -, rfl⟩ | ⟨k, n, c, -, -, rfl⟩ | ⟨x, v, -, rfl⟩ | ⟨x, -, rfl⟩ | ⟨k, c, -, -, rfl⟩ :=
    hostAct_next h
  · rw [State.hostWrite_mem]
  · rw [State.hostRead_mem]
  · exact State.hostMemWrite_keeps hm hc flight hc' clear ha
  · rw [State.hostMemRead_mem]
  · rw [State.hostReset_mem]

/-- An operation that is still in flight after its end has written nothing. -/
theorem endMem_of_ended_inFlight {c : Codec} {o : OpEnd} {fp : Footprint} (h : (c.ended o).inFlight = some fp) (m : Memory) :
    endMem m o = m := by
  cases o with
  | done | raised => cases h
  | faulted | refused => rfl

/-- The end of one operation leaves every byte of the footprint of another. -/
theorem Footprint.kept_outside {f g : Footprint} (apart : f.conflicts g = false) {m m' : Memory}
    (outside : Memory.AgreeOutside f.wr m m') {a : Nat} (ha : g.hitByWrite a = true) :
    Memory.read m' a = Memory.read m a := by
  obtain read | write := (Footprint.hitByWrite_iff g a).mp ha
  · exact agreeOn_after apart outside a read
  · exact outside a (Region.not_both (Region.meets_comm .. ▸ Footprint.writes_apart apart) write)

/-- Settles O57: a host write of such a byte races (`State.hostAct_keeps`); another operation's write set lies apart; and the
codec's own COMPLETE, if it leaves the operation in flight, has written nothing. -/
theorem footprintBytesAreStable : Obligations.FootprintBytesAreStable := by
  intro s t k c c' fp a inv h hc flight hc' flight' clear inside
  have ha : fp.hitByWrite a = true := (Footprint.hitByWrite_iff fp a).mpr inside
  have hm : Memory.wf s.mem = true := inv.mem.1
  obtain ⟨-, ⟨act, rest, -, -, -, hact⟩ | ⟨j, d, op, g, -, hd, phase, -, ⟨i, decoded, hexec⟩ | ⟨v, -, rfl⟩⟩ | ⟨-, -, rfl⟩⟩ :=
    step_next h
  · exact State.hostAct_keeps (s := s.taken rest) hm hact hc flight hc' clear ha
  · obtain ⟨codecs, mem, -⟩ := exec_activate hd hexec
    rw [mem]
    by_cases hj : j = k
    · subst hj
      cases hc.symm.trans hd
      rw [codecs, List.getElem?_set_self (List.getElem?_eq_some_iff.mp hc).1] at hc'
      cases hc'
      rw [endMem_of_ended_inFlight flight']
    · obtain rfl := (decode_ok_iff op i).mp decoded
      obtain ⟨written, flightj⟩ := inv.busy hd phase
      have apart : (footprint i d.req).conflicts fp = false := inv.noConflict j k hj d c hd hc _ _ flightj flight
      exact Footprint.kept_outside apart (endMem_agreeOutside s.params hm written) ha
  · rfl
  · rfl

end Sys2Proof.Machine
end

section
/-! PROOFS. Commands (30_encoding.md R80 to R87): the decoder on command bytes and on reserved ones, the expansion of the
pseudo-instructions, and what the step is that a START or a command in flight makes. -/
namespace Sys2Proof.Machine

/-! ### Command bytes (30_encoding.md R82, R83) -/

theorem decode_encode (i : Instr) : decode (encode i) = .ok i := (decode_ok_iff _ i).mpr rfl

theorem decode_error_code {v w : Byte} (h : decode v = .error (.reservedOp w)) : w = v := by
  unfold decode at h
  split at h
  · cases h
  · cases h; rfl

theorem encode_not_reserved (i : Instr) : ¬ (encode i = 0x00 ∨ 0x05 ≤ encode i) := by cases i <;> decide

/-- A reserved code is rejected by its own name (30_encoding.md R83). -/
theorem decode_reserved {v : Byte} (h : v = 0x00 ∨ 0x05 ≤ v) : decode v = .error (.reservedOp v) := by
  cases decoded : decode v with
  | ok i =>
    obtain rfl := (decode_ok_iff v i).mp decoded
    exact absurd h (encode_not_reserved i)
  | error e =>
    obtain ⟨w⟩ := e
    rw [decode_error_code decoded]

/-- Settles O4: the decoder inverts the encoder (`decode_encode`), whose four bytes are the table's. -/
theorem commandBytesDecode : Obligations.CommandBytesDecode :=
  ⟨decode_encode .crc16, decode_encode .frame, decode_encode .encode, decode_encode .decode, rfl, rfl, rfl, rfl⟩

/-- Settles O7: the expansions are the definition's, and the register numbers and command bytes evaluate to the literals. -/
theorem pseudoInstructionsExpand : Obligations.PseudoInstructionsExpand :=
  fun _ _ _ _ => ⟨rfl, rfl, rfl, rfl, rfl, rfl⟩

/-! ### START (30_encoding.md R80) -/

section Start
variable {s : State} {k : Nat} {c : Codec} {i : Instr}

theorem State.start_reserved {v : Byte} (h : v = 0x00 ∨ 0x05 ≤ v) : s.start k c v = s.refuse (.reservedOp v) := by
  rw [State.start, decode_reserved h]

/-- `start_cases` for an operation's own command byte. -/
theorem State.start_encode_cases (s : State) (k : Nat) (c : Codec) (i : Instr) :
    (∃ r, (c.withCmd (encode i)).firstUnwritten i = some r ∧
      s.start k c (encode i) = (s.setCodec k (c.withCmd (encode i))).recordFault k (.unwritten r)) ∨
    ((c.withCmd (encode i)).firstUnwritten i = none ∧ s.conflictsElsewhere k (footprint i c.req) = true ∧
      s.start k c (encode i) = (s.setCodec k (c.withCmd (encode i))).raceAtStart k (footprint i c.req)) ∨
    ((c.withCmd (encode i)).firstUnwritten i = none ∧ s.conflictsElsewhere k (footprint i c.req) = false ∧
      s.start k c (encode i) =
        s.setCodec k { c.withCmd (encode i) with phase := .busy (encode i) (footprint i c.req) }) := by
  obtain ⟨v, refused, -⟩ | ⟨i', decoded, ends⟩ := start_cases s k c (encode i)
  · cases (decode_encode i).symm.trans refused
  · cases (decode_encode i).symm.trans decoded
    exact ends

theorem State.start_alone (written : (c.withCmd (encode i)).firstUnwritten i = none)
    (alone : s.conflictsElsewhere k (footprint i c.req) = false) :
    s.start k c (encode i) =
      s.withInstance k { c.withCmd (encode i) with phase := .busy (encode i) (footprint i c.req) } := by
  obtain ⟨r, lacks, -⟩ | ⟨-, conflict, -⟩ | ⟨-, -, h⟩ := State.start_encode_cases s k c i
  · cases written.symm.trans lacks
  · cases alone.symm.trans conflict
  · exact h

theorem State.withInstance_withInstance (s : State) (k : Nat) (c c' : Codec) :
    (s.withInstance k c).withInstance k c' = s.withInstance k c' := by
  simp [State.withInstance]

theorem State.start_lacking (hc : s.codecs[k]? = some c) (clear : c.fault = none) {r : Reg}
    (lacks : (c.withCmd (encode i)).firstUnwritten i = some r) :
    s.start k c (encode i) = s.withInstance k { c.withCmd (encode i) with fault := some (.unwritten r) } := by
  obtain ⟨r', lacks', h⟩ | ⟨written, -⟩ | ⟨written, -⟩ := State.start_encode_cases s k c i
  · cases lacks.symm.trans lacks'
    have written : (s.withInstance k (c.withCmd (encode i))).codecs[k]? = some (c.withCmd (encode i)) :=
      List.getElem?_set_self (List.getElem?_eq_some_iff.mp hc).1
    calc s.start k c (encode i)
        = (s.withInstance k (c.withCmd (encode i))).recordFault k (.unwritten r) := h
      _ = (s.withInstance k (c.withCmd (encode i))).withInstance k
            { c.withCmd (encode i) with fault := some (.unwritten r) } := State.finish_faulted written clear _
      _ = _ := State.withInstance_withInstance ..
  · cases written.symm.trans lacks
  · cases written.symm.trans lacks

/-- A footprint that meets no operation in flight elsewhere is one that conflicts with none. -/
theorem State.not_conflictsElsewhere {fp : Footprint}
    (h : ∀ (j : Nat) (d : Codec) (g : Footprint), j ≠ k → s.codecs[j]? = some d → d.inFlight = some g →
      fp.conflicts g = false) : s.conflictsElsewhere k fp = false := by
  refine List.any_eq_false.mpr fun d hd => ?_
  obtain ⟨j, hj, hget⟩ := List.mem_eraseIdx_iff_getElem?.mp hd
  rw [Codec.conflictsWith_eq, Bool.not_eq_true, Codec.not_hitBy_iff]
  exact fun g flight => h j d g hj hget flight

/-- An operation reads no CMD (10_state.md R22). -/
theorem cmd_not_mem_opReads (i : Instr) : Reg.cmd ∉ opReads i := by cases i <;> decide

/-- The registers an operation reads, in ascending number. -/
theorem opReads_ascending (i : Instr) : (opReads i).Pairwise (·.num < ·.num) := by cases i <;> decide

theorem Codec.firstUnwritten_withCmd_eq (c : Codec) (op : Byte) (i : Instr) :
    (c.withCmd op).firstUnwritten i = c.firstUnwritten i := by
  refine List.find?_congr fun r hr => ?_
  rw [Codec.read_withCmd_other c op fun h => cmd_not_mem_opReads i (h ▸ hr)]

/-- START finds the lowest-numbered register without a value, since it checks them in ascending number. -/
theorem Codec.firstUnwritten_eq_lowest {r : Reg} (hr : r ∈ opReads i) (empty : c.read r = none)
    (lowest : ∀ r' ∈ opReads i, r'.num < r.num → c.read r' ≠ none) : c.firstUnwritten i = some r := by
  obtain ⟨below, above, parts⟩ := List.append_of_mem hr
  refine List.find?_eq_some_iff_append.mpr ⟨by simp [empty], below, above, parts, fun r' hr' => ?_⟩
  have ascending := parts ▸ opReads_ascending i
  obtain ⟨-, -, across⟩ := List.pairwise_append.mp ascending
  have lower : r'.num < r.num := across r' hr' r List.mem_cons_self
  simpa [Option.isSome_iff_ne_none] using lowest r' (parts ▸ List.mem_append_left _ hr') lower

end Start

/-- Settles O5: the code is decoded before anything else (`State.start_reserved`). -/
theorem reservedCommandIsRefused : Obligations.ReservedCommandIsRefused := by
  intro s k c w v rest turn carries hc reserved
  rw [turn.step_start carries hc, State.start_reserved reserved]
  rfl

/-- Settles O46: the START finds every operand and no conflict (`State.start_alone`). -/
theorem startPutsOperationInFlight : Obligations.StartPutsOperationInFlight := by
  intro s k c i w rest turn carries hc written apart
  have alone : (s.taken rest).conflictsElsewhere k (footprint i c.req) = false := State.not_conflictsElsewhere apart
  rw [turn.step_start carries hc, State.start_alone (Codec.firstUnwritten_withCmd written (encode i)) alone]
  rfl

/-- Settles O47: the first register found without a value is the lowest (`Codec.firstUnwritten_eq_lowest`), CMD written or not. -/
theorem startFaultsOnUnwritten : Obligations.StartFaultsOnUnwritten := by
  intro s k c i r w rest turn carries hc hr empty lowest
  have lacks : (c.withCmd (encode i)).firstUnwritten i = some r :=
    (c.firstUnwritten_withCmd_eq _ i).trans (Codec.firstUnwritten_eq_lowest hr empty lowest)
  rw [turn.step_start carries hc, State.start_lacking (s := s.taken rest) hc (turn.free rfl hc).2 lacks]
  rfl

/-! ### COMPLETE (30_encoding.md R80) -/

/-- A busy codec without a fault can complete (60_exceptions.md R183). -/
theorem Codec.canComplete_of_busy {c : Codec} {op : Byte} {fp : Footprint} (phase : c.phase = .busy op fp)
    (clear : c.fault = none) : c.canComplete = true := by
  simp [Codec.canComplete, Codec.isBusy, phase, clear]

theorem State.enabled_of_canComplete {s : State} {k : Nat} {c : Codec} (hc : s.codecs[k]? = some c)
    (can : c.canComplete = true) : s.enabled (.codec k) = true := by
  rw [State.enabled, hc]
  exact can

/-- Settles O9: `step_complete`. -/
theorem stepRunsDecodedOperation : Obligations.StepRunsDecodedOperation :=
  fun _ _ _ _ _ _ clear turn hc phase decoded => step_complete clear turn hc phase decoded

/-- A command the model loads is in flight on codec 0, whatever that held (notes/assumptions/4.md). -/
theorem Codec.withCommand_busy (p : Params) (c : Codec) (i : Instr) :
    ∃ fp, (c.withCommand p (encode i)).phase = .busy (encode i) fp ∧ (c.withCommand p (encode i)).fault = none := by
  rw [Codec.withCommand, decode_encode]
  exact ⟨_, rfl, rfl⟩

/-- A command is one 8-bit word (30_encoding.md R81), so the model loads the byte it is given. -/
theorem State.withFetchWord_byte (s : State) (op : Byte) : s.withFetchWord 8 op.toNat = s.placeCommand op := by
  rw [State.withFetchWord, Nat.mod_eq_of_lt op.isLt, BitVec.ofNat_toNat, BitVec.setWidth_eq]

/-- Settles O10: the loaded command is busy and asked for, so the step is its COMPLETE (`step_complete`), on a codec that
exists (`exec_of_active`). -/
theorem placedCommandRuns : Obligations.PlacedCommandRuns := by
  intro s i
  rw [State.withFetchWord_byte]
  obtain ⟨fp, phase, clear⟩ := (s.codecs.headD {}).withCommand_busy s.params i
  have hc : (s.placeCommand (encode i)).codecs[0]? = some ((s.codecs.headD {}).withCommand s.params (encode i)) := rfl
  have enabled : (s.placeCommand (encode i)).enabled (.codec 0) = true :=
    State.enabled_of_canComplete hc (Codec.canComplete_of_busy phase clear)
  have complete : step (s.placeCommand (encode i)) = exec i ((s.placeCommand (encode i)).activate 0) :=
    step_complete rfl (State.turn_of_schedule rfl enabled) hc phase (decode_encode i)
  exact ⟨complete, _, complete.trans (exec_of_active i hc)⟩

end Sys2Proof.Machine
end

section
/-! PROOFS. Every run ends (30_encoding.md R80, 70_reset_and_hazards.md R216): a step that goes on from a state that is not final
leaves less work, or sets the refused mark, which stops the next one. -/
namespace Sys2Proof.Machine

/-! ### Operations that can still complete -/

/-- Where at most the entry at `k` comes to satisfy `p`, the count rises by at most one. -/
theorem countP_le_of_forall_ne {α : Type} {p : α → Bool} {k : Nat} {l l' : List α} (count : l'.length = l.length)
    (h : ∀ j, j ≠ k → ∀ a b, l[j]? = some a → l'[j]? = some b → p b = true → p a = true) :
    l'.countP p ≤ l.countP p + if k < l.length then 1 else 0 := by
  induction l generalizing l' k with
  | nil => simp [List.eq_nil_of_length_eq_zero count]
  | cons a l ih =>
    obtain ⟨b, l', rfl⟩ := List.exists_cons_of_length_eq_add_one count
    have count' : l'.length = l.length := Nat.succ.inj count
    cases k with
    | zero =>
      have tail := ih (k := l.length) count' fun j _ => h (j + 1) (by omega)
      simp only [List.countP_cons, List.length_cons, lt_self_iff_false, if_false, Nat.zero_lt_succ, if_true] at tail ⊢
      split <;> omega
    | succ k =>
      have tail := ih (k := k) count' fun j hj => h (j + 1) (by omega)
      have head : p b = true → p a = true := h 0 (by omega) a b rfl rfl
      simp only [List.countP_cons, List.length_cons, Nat.succ_lt_succ_iff] at tail ⊢
      by_cases hb : p b = true
      · rw [if_pos hb, if_pos (head hb)]; omega
      · rw [if_neg hb]; omega

section Progress
variable {s t : State} {k : Nat} {c c' : Codec}

/-- A faulted codec takes no further step (60_exceptions.md R186). -/
@[simp] theorem Codec.record_canComplete (c : Codec) (f : ModelFault) : (c.record f).canComplete = false := by
  simp [Codec.canComplete]

/-- An end that is no refusal was the operation's last step. -/
theorem Codec.ended_canComplete (c : Codec) (o : OpEnd) :
    (c.ended o).canComplete = false ∨ ∃ r, o = .refused r := by
  cases o with
  | done | raised => exact .inl rfl
  | faulted f => exact .inl (c.record_canComplete f)
  | refused r => exact .inr ⟨r, rfl⟩

/-- Of a codec's moves only a START lets it complete an operation. -/
theorem CodecMove.canComplete (move : CodecMove s k c c') (h : c'.canComplete = true) :
    c.canComplete = true ∨ ∃ v rest, s.HostTurn (.hw k 0 v) rest := by
  cases move with
  | stays | writes => exact .inl h
  | faults f => simp at h
  | startFails turn | starts turn => exact .inr ⟨_, _, turn⟩
  | resets => cases h
  | completes i =>
    obtain ended | ⟨r, refused⟩ := c.ended_canComplete (opRule i s.params c.req s.mem)
    · cases ended.symm.trans h
    · rw [refused] at h
      exact .inl h

/-- The host starts at most one operation in a step. -/
theorem State.Moves.pending_le (moves : s.Moves t) : t.pending ≤ s.pending + 1 := by
  obtain ⟨k, others⟩ : ∃ k, ∀ j, j ≠ k → ¬ ∃ v rest, s.HostTurn (.hw j 0 v) rest := by
    by_cases start : ∃ k v rest, s.HostTurn (.hw k 0 v) rest
    · obtain ⟨k, v, rest, turn⟩ := start
      refine ⟨k, fun j hj ⟨v', rest', turn'⟩ => ?_⟩
      cases turn.program.symm.trans turn'.program
      exact hj rfl
    · exact ⟨0, fun j _ turn => start ⟨j, turn⟩⟩
  have le := countP_le_of_forall_ne (p := Codec.canComplete) (k := k) moves.count fun j hj c c' hc hc' h =>
    ((moves.each j c c' hc hc').canComplete h).resolve_right (others j hj)
  simp only [State.pending]
  split at le <;> omega

theorem State.pending_pos (hc : s.codecs[k]? = some c) (can : c.canComplete = true) : 0 < s.pending :=
  List.countP_pos_iff.mpr ⟨c, List.mem_of_getElem? hc, can⟩

/-- A codec that stops being able to complete is one fewer. -/
theorem State.pending_lt_of_set (hc : s.codecs[k]? = some c) (can : c.canComplete = true) (ended : c'.canComplete = false)
    (h : t.codecs = s.codecs.set k c') : t.pending < s.pending := by
  have pos := State.pending_pos hc can
  obtain ⟨hk, rfl⟩ := List.getElem?_eq_some_iff.mp hc
  rw [State.pending, h, List.countP_set hk, can, ended]
  simp only [State.pending] at pos ⊢
  simp only [if_true, Bool.false_eq_true, if_false]
  omega

/-! ### The host's program -/

@[simp] theorem State.start_program (s : State) (k : Nat) (c : Codec) (op : Byte) :
    (s.start k c op).program = s.program := by
  obtain ⟨v, -, h⟩ | ⟨i, -, ⟨r, -, h⟩ | ⟨-, -, h⟩ | ⟨-, -, h⟩⟩ := start_cases s k c op <;> rw [h] <;> rfl

@[simp] theorem State.hostWrite_program (s : State) (k : Nat) (c : Codec) (n : RegNum) (v : Nat) :
    (s.hostWrite k c n v).program = s.program := by
  obtain h | h | ⟨-, -, h⟩ | ⟨r, -, -, -, -, h⟩ := hostWrite_cases s k c n v <;> rw [h] <;> simp

@[simp] theorem State.hostRead_program (s : State) (k : Nat) (c : Codec) (n : RegNum) :
    (s.hostRead k c n).program = s.program := by
  unfold State.hostRead
  split
  · rfl
  · split <;> rfl

@[simp] theorem State.hostMemWrite_program (s : State) (a : Nat) (v : Byte) : (s.hostMemWrite a v).program = s.program := by
  unfold State.hostMemWrite
  split_ifs <;> rfl

@[simp] theorem State.hostMemRead_program (s : State) (a : Nat) : (s.hostMemRead a).program = s.program := by
  unfold State.hostMemRead
  split_ifs <;> rfl

@[simp] theorem State.hostReset_program (s : State) (k : Nat) (c : Codec) : (s.hostReset k c).program = s.program := by
  unfold State.hostReset
  split <;> rfl

/-- A host action adds none to the program it was taken from. -/
theorem State.hostAct_program {a : HostAction} (h : State.hostAct s a = .next t) : t.program = s.program := by
  obtain ⟨k, n, v, c, x, -, -, -, rfl⟩ | ⟨k, n, c, -, -, rfl⟩ | ⟨x, v, -, rfl⟩ | ⟨x, -, rfl⟩ | ⟨k, c, -, -, rfl⟩ :=
    hostAct_next h <;> simp

/-! ### A step's progress -/

/-- The host's action is done: two less of work, of which a START gives back one. -/
theorem State.HostTurn.workLeft_lt {a : HostAction} {rest : List HostAction} (turn : s.HostTurn a rest)
    (h : State.hostAct (s.taken rest) a = .next t) : t.workLeft < s.workLeft := by
  have pending := (State.hostAct_moves turn h).pending_le
  have program : t.program = rest := State.hostAct_program h
  simp only [State.workLeft, turn.program, program, List.length_cons]
  omega

/-- A COMPLETE ends its operation, unless it is refused. -/
theorem exec_workLeft_lt {i : Instr} (hc : s.codecs[k]? = some c) (can : c.canComplete = true)
    (h : exec i (s.activate k) = .next t) : t.workLeft < s.workLeft ∨ t.refused.isSome = true := by
  obtain ⟨codecs, -, -⟩ := exec_activate hc h
  obtain ⟨d, hd, rfl⟩ := exec_next h
  cases hc.symm.trans hd
  obtain ended | ⟨r, refused⟩ := c.ended_canComplete (opRule i s.params c.req s.mem)
  · have pending := State.pending_lt_of_set hc can ended codecs
    simp only [State.workLeft, State.finish_program, State.activate_program]
    exact .inl (by omega)
  · simp only [State.activate_params, State.activate_mem, refused]
    exact .inr rfl

/-- A step that goes on leaves less work, or sets the refused mark with work left, or stays in a final state. -/
theorem step_progress (h : step s = .next t) :
    t.workLeft < s.workLeft ∨ (t.refused.isSome = true ∧ 0 < s.workLeft) ∨ (s.isFinal = true ∧ t = s) := by
  obtain ⟨clear, ⟨a, rest, turn, program, -, hact⟩ | ⟨k, c, op, fp, turn, hc, phase, fault, complete⟩ | final⟩ := step_next h
  · exact .inl (State.HostTurn.workLeft_lt ⟨clear, turn, program⟩ hact)
  · have can : c.canComplete = true := Codec.canComplete_of_busy phase fault
    have work : 0 < s.workLeft := Nat.lt_add_left _ (State.pending_pos hc can)
    obtain ⟨i, -, hexec⟩ | ⟨v, -, rfl⟩ := complete
    · exact (exec_workLeft_lt hc can hexec).imp_right fun refused => .inl ⟨refused, work⟩
    · exact .inr (.inl ⟨rfl, work⟩)
  · obtain ⟨-, final, same⟩ := final
    exact .inr (.inr ⟨final, same⟩)

end Progress

/-! ### Runs -/

section Run
variable {s t : State} (n : Nat)

theorem run_of_next (h : step s = .next t) : core.run (n + 1) s = core.run n t := by
  simp [Host.Core.run, core, h]

theorem run_of_fault {f : Fault} (h : step s = .fault f) : core.run (n + 1) s = .fault f := by
  simp [Host.Core.run, core, h]

theorem run_of_refused {r : Refusal} (h : step s = .refused r) : core.run (n + 1) s = .refused r := by
  simp [Host.Core.run, core, h]

/-- A state that steps to itself is where every run from it ends. -/
theorem run_of_fixed (h : step s = .next s) : core.run n s = .next s := by
  induction n with
  | zero => rfl
  | succ n ih => rw [run_of_next n h, ih]

/-- No step goes on from a state with the refused mark set (60_exceptions.md R187). -/
theorem step_marked (h : s.refused.isSome = true) : ∃ r, step s = .refused (.marked r) := by
  obtain ⟨r, h⟩ := Option.isSome_iff_exists.mp h
  exact ⟨r, by simp [step, h]⟩

end Run

/-- Settles O58: by induction on the steps, each of which makes progress (`step_progress`); a mark set with work left stops the
run in the step after. -/
theorem everyRunEnds : Obligations.EveryRunEnds := by
  intro s n bound
  induction n generalizing s with
  | zero => cases bound
  | succ n ih =>
    cases h : step s with
    | fault f => rw [run_of_fault n h]; trivial
    | refused r => rw [run_of_refused n h]; trivial
    | next t =>
      obtain less | ⟨marked, work⟩ | ⟨final, rfl⟩ := step_progress h
      · rw [run_of_next n h]
        exact ih t (by omega)
      · obtain ⟨m, rfl⟩ : ∃ m, n = m + 1 := ⟨n - 1, by omega⟩
        obtain ⟨r, stops⟩ := step_marked marked
        rw [run_of_next _ h, run_of_refused m stops]
        trivial
      · rw [run_of_fixed _ h]
        exact final

end Sys2Proof.Machine
end

section
/-! PROOFS. The CRC of a message (40_checksum.md R102 to R104): it continues over a concatenation, and ends at zero over a
message followed by its own CRC; the operation CRC16 on a legal region (R105). -/
namespace Sys2Proof.Machine

/-! ### The CRC over bytes in order -/

@[simp] theorem crc16_nil : crc16 [] = crcInit := rfl

theorem crc16_append (x y : List Byte) : crc16 (x ++ y) = crcContinue (crc16 x) y := List.foldl_append

/-- Settles O11: both inputs are closed, so their CRCs are evaluated. -/
theorem crcOfEmptyAndCheckString : Obligations.CrcOfEmptyAndCheckString := ⟨crc16_nil, by decide +kernel⟩

/-- Settles O12: the CRC is a fold over the bytes (`crc16_append`). -/
theorem crcContinuesOverConcatenation : Obligations.CrcContinuesOverConcatenation := crc16_append

/-! ### A message followed by its CRC (95_test_vectors.md V-CRC-16) -/

/-- While the top bit is clear the polynomial stays out: a byte in the low half moves up unchanged. -/
theorem repeat_crcShift_lowByte (b : Byte) {n : Nat} (h : n ≤ 8) :
    Nat.repeat crcShift n (b.zeroExtend 16) = b.zeroExtend 16 <<< n := by
  induction n with
  | zero => exact (BitVec.shiftLeft_zero _).symm
  | succ n ih =>
    have clear : (b.zeroExtend 16 <<< n : CrcWord).getLsbD 15 = false := by
      have above : b.getLsbD (15 - n) = false := BitVec.getLsbD_of_ge b _ (by omega)
      simp [above]
    rw [Nat.repeat, ih (by omega), crcShift, clear, if_neg Bool.false_ne_true, BitVec.shiftLeft_add]

/-- XORing a word's high byte into its high half leaves its low byte. -/
theorem xor_highByte (c : CrcWord) :
    c ^^^ ((c.extractLsb' 8 8).zeroExtend 16 <<< 8) = (c.extractLsb' 0 8).zeroExtend 16 := by
  ext i hi
  by_cases h : i < 8
  · simp [h, hi]
  · have index : 8 + (i - 8) = i := by omega
    have high : i - 8 < 8 := by omega
    simp [h, hi, index, high]

/-- The register's own high byte cancels it, and the low byte moves up. -/
theorem crcUpdate_highByte (c : CrcWord) :
    crcUpdate c (c.extractLsb' 8 8) = (c.extractLsb' 0 8).zeroExtend 16 <<< 8 := by
  rw [crcUpdate, xor_highByte, repeat_crcShift_lowByte _ (Nat.le_refl 8)]

/-- A byte alone in the high half is cancelled by the same byte, and an empty register stays empty. -/
theorem crcUpdate_cancel (b : Byte) : crcUpdate (b.zeroExtend 16 <<< 8) b = 0 := by
  rw [crcUpdate, BitVec.xor_self]
  exact repeat_crcShift_lowByte 0 (Nat.le_refl 8)

/-- Settles O14: the first CRC byte clears the high half and brings the low one up (`crcUpdate_highByte`), which the second
clears (`crcUpdate_cancel`). -/
theorem crcOfMessageWithItsCrcIsZero : Obligations.CrcOfMessageWithItsCrcIsZero := by
  intro x
  calc crc16 (x ++ [(crc16 x).extractLsb' 8 8, (crc16 x).extractLsb' 0 8])
      = crcUpdate (crcUpdate (crc16 x) ((crc16 x).extractLsb' 8 8)) ((crc16 x).extractLsb' 0 8) := crc16_append x _
    _ = crcUpdate (((crc16 x).extractLsb' 0 8).zeroExtend 16 <<< 8) ((crc16 x).extractLsb' 0 8) := by
      rw [crcUpdate_highByte]
    _ = 0 := crcUpdate_cancel _

/-! ### CRC16 (40_checksum.md R105) -/

/-- Results that leave memory as it is change the response registers and the phase alone (10_state.md R41). -/
theorem State.finish_done (s : State) (c : Codec) (o : RespRegs) :
    s.finish s.active c (.done o s.mem) = s.answered c o := rfl

/-- Settles O16: the rule of CRC16 on a legal region (`crc16Op_eq`). -/
theorem crc16Completes : Obligations.Crc16Completes := by
  intro s c base n hc ⟨hb, hn⟩ legal
  rw [exec_of_active _ hc, opRule, crc16Op_eq hb hn, if_pos legal, State.finish_done]
  rfl

end Sys2Proof.Machine
end

section
/-! PROOFS. Frame construction and the encoder (41_encoder.md R120 to R133): FRAME on a Frame that is written, the bytes of an
encoded frame as memory holds them, and the ends of ENCODE in the order of its checks (60_exceptions.md R183). -/
namespace Sys2Proof.Machine

/-! ### FRAME (41_encoder.md R120, R121) -/

/-- FRAME on fields that are all written: its one check, then the copy, whose `F_PBASE` is `ADDR_W` bits wide. -/
theorem frameOp_eq {p : Params} {c : Codec} {m : Memory} {f : FrameFields} (h : c.HoldsFrame f) :
    frameOp p c.req m =
      if 255 < f.plen then .raised .payloadTooLarge
      else .done (RespRegs.ofFrame { f with pbase := truncReg p .fPBase f.pbase }) m := by
  obtain ⟨ver, dst, src, type, cmdId, seq, last, pbase, plen⟩ := h
  simp only [frameOp, ver, dst, src, type, cmdId, seq, last, pbase, plen, reading_some, maxPayload_eq]
  rfl

theorem truncReg_of_lt {p : Params} {r : Reg} {v : Nat} (fits : v < 2 ^ r.width p) : truncReg p r v = v :=
  Nat.mod_eq_of_lt fits

/-- Settles O17: the payload passes FRAME's check, and its base address fits `F_PBASE` (`frameOp_eq`). -/
theorem frameCompletes : Obligations.FrameCompletes := by
  intro s c f hc hf short fits
  have whole : truncReg s.params .fPBase f.pbase = f.pbase := truncReg_of_lt fits
  rw [exec_of_active _ hc, opRule, frameOp_eq hf, if_neg (Nat.not_lt.mpr short), whole, State.finish_done]

/-- Settles O18: by FRAME's one check (`frameOp_eq`); the codes 0 and 5 differ. -/
theorem frameRejectsLongPayload : Obligations.FrameRejectsLongPayload := by
  intro s c f hc hf
  refine ⟨_, _, exec_of_active _ hc, State.finish_self s _ c _ hc, ?_⟩
  rw [opRule, frameOp_eq hf]
  by_cases long : 255 < f.plen
  · rw [if_pos long]
    exact ⟨⟨fun _ => long, fun _ => rfl⟩, fun _ => rfl⟩
  · rw [if_neg long]
    have other : (some 0 : Option (BitVec 3)) ≠ some 5 := by decide
    exact ⟨⟨fun h => absurd h other, fun h => absurd h long⟩, fun h => absurd h long⟩

/-! ### ENCODE: the ends without a frame (41_encoder.md R125, R126, R132) -/

/-- Settles O22: the payload length is the first check, before any other register is read (`encodeOp_tooLarge`). -/
theorem encodeRejectsLongPayload : Obligations.EncodeRejectsLongPayload := by
  intro s c n hc hn long
  rw [exec_of_active _ hc, opRule, encodeOp_tooLarge hn long, State.finish_raised]
  rfl

/-- ENCODE with a short payload and legal regions: the capacity is checked before the overlap, and the overlap before the frame is
written. -/
theorem encodeOp_legal {p : Params} {c : Codec} {m : Memory} {e : EncodeArgs} (he : c.HoldsEncode e) (short : e.plen ≤ 255)
    (payload : e.pbase + e.plen ≤ 2 ^ p.addrW) (dest : e.dbase + e.cap ≤ 2 ^ p.addrW) :
    encodeOp p c.req m =
      if e.cap < 11 + e.plen then .raised .bufferTooSmall
      else if e.payload.meets e.target then .faulted .overlap
      else .done { status := some statusOk, written := some (truncReg p .written (11 + e.plen)) }
        (Memory.writeBytes m e.dbase (frameBytes e.header (Memory.buf m e.pbase e.plen))) := by
  rw [encodeOp_eq he, if_neg (Nat.not_lt.mpr short), if_neg (not_not.mpr ⟨payload, dest⟩)]

/-- Settles O23: the capacity check comes before the overlap check (`encodeOp_legal`). -/
theorem encodeRejectsSmallBuffer : Obligations.EncodeRejectsSmallBuffer := by
  intro s c e hc he short payload dest small
  rw [exec_of_active _ hc, opRule, encodeOp_legal he short payload dest, if_pos small, State.finish_raised]
  rfl

/-- Settles O24: an address in both regions makes them meet (`Region.meets_iff`); a small buffer is found before that
(`encodeRejectsSmallBuffer`). -/
theorem encodeFaultsOnOverlap : Obligations.EncodeFaultsOnOverlap := by
  intro s c e a hc clear he short payload dest inPayload inTarget
  refine ⟨fun room => ?_, encodeRejectsSmallBuffer s c e hc he short payload dest⟩
  have shared : e.payload.meets e.target = true := (Region.meets_iff _ _).mpr ⟨a, inPayload, inTarget⟩
  rw [exec_of_active _ hc, opRule, encodeOp_legal he short payload dest, if_neg (Nat.not_lt.mpr room), if_pos shared,
    State.finish_faulted hc clear]

/-! ### The bytes memory holds from an address on -/

/-- Memory holds the bytes `vs` at `base`, `base + 1`, …, in order. -/
def Memory.Holds (m : Memory) (base : Nat) (vs : List Byte) : Prop := Memory.buf m base vs.length = vs

section Holds
variable {m m' : Memory} {base base' n : Nat} {v : Byte} {vs ws : List Byte}

theorem Memory.holds_nil : m.Holds base [] := rfl

theorem Memory.holds_cons : m.Holds base (v :: vs) ↔ Memory.read m base = v ∧ m.Holds (base + 1) vs := by
  simp only [Memory.Holds, List.length_cons, Memory.buf_succ, List.cons.injEq]

theorem Memory.holds_append : m.Holds base (vs ++ ws) ↔ m.Holds base vs ∧ m.Holds (base + vs.length) ws := by
  rw [Memory.Holds, List.length_append, Memory.buf_append]
  constructor
  · exact fun h => List.append_inj h (Memory.buf_length m base vs.length)
  · rintro ⟨hv, hw⟩
    rw [hv, hw]

theorem Memory.buf_eq_iff :
    Memory.buf m base n = Memory.buf m' base' n ↔ ∀ i, i < n → Memory.read m (base + i) = Memory.read m' (base' + i) := by
  simp only [Memory.buf, List.map_inj_left, List.mem_range]

theorem Memory.holds_buf :
    m.Holds base (Memory.buf m' base' n) ↔ ∀ i, i < n → Memory.read m (base + i) = Memory.read m' (base' + i) := by
  rw [Memory.Holds, Memory.buf_length, Memory.buf_eq_iff]

/-- Memory holds the bytes written to it in a row. -/
theorem Memory.holds_writeBytes (h : Memory.wf m = true) (base : Nat) (vs : List Byte) :
    (Memory.writeBytes m base vs).Holds base vs := by
  induction vs generalizing m base with
  | nil => exact Memory.holds_nil
  | cons v vs ih =>
    have hm := Memory.wf_write h base v
    refine Memory.holds_cons.mpr ⟨?_, ih hm (base + 1)⟩
    rw [Memory.writeBytes, Memory.read_writeBytes hm, if_neg (Nat.not_succ_le_self base), Memory.read_write h, if_pos rfl]

/-- A frame in memory (30_encoding.md R70): the start byte, the header and payload, and behind them their CRC. -/
theorem Memory.holds_frameBytes {hdr payload : List Byte} :
    m.Holds base (frameBytes hdr payload) ↔
      Memory.read m base = 0x7E ∧ m.Holds (base + 1) (hdr ++ payload) ∧
        m.Holds (base + 1 + (hdr ++ payload).length) (crcBytes (crc16 (hdr ++ payload))) := by
  rw [frameBytes, Memory.holds_cons, Memory.holds_append, startByte]

end Holds

/-! ### ENCODE: the frame (41_encoder.md R127 to R133) -/

/-- The one bit of `I_LAST` as a byte (41_encoder.md R130). -/
theorem zeroExtend_bit (b : BitVec 1) : b.zeroExtend 8 = if b = 1 then (0x01 : Byte) else 0x00 := by
  revert b
  decide

/-- The header in memory, by offset (30_encoding.md R73, 41_encoder.md R130). -/
theorem EncodeArgs.holds_header {e : EncodeArgs} {m : Memory} {base : Nat} :
    m.Holds base e.header ↔
      Memory.read m base = e.ver ∧ Memory.read m (base + 1) = e.dst ∧ Memory.read m (base + 2) = e.src ∧
      Memory.read m (base + 3) = e.type ∧ Memory.read m (base + 4) = e.cmdId ∧ Memory.read m (base + 5) = e.seq ∧
      Memory.read m (base + 6) = e.last.zeroExtend 8 ∧ Memory.read m (base + 7) = BitVec.ofNat 8 e.plen := by
  simp only [EncodeArgs.header, headerBytes, Memory.holds_cons, Memory.holds_nil, and_true, Nat.add_assoc, Nat.reduceAdd]

/-- The frame of the operands `e` with the payload bytes that `m` holds. -/
def EncodeArgs.frame (e : EncodeArgs) (m : Memory) : List Byte := frameBytes e.header (Memory.buf m e.pbase e.plen)

theorem EncodeArgs.frame_length (e : EncodeArgs) (m : Memory) : (e.frame m).length = 11 + e.plen := by
  rw [EncodeArgs.frame, frameBytes_length, EncodeArgs.header_length, Memory.buf_length]
  omega

/-- Equal Frames have equal bytes, wherever their payloads lie (41_encoder.md R133). -/
theorem EncodeArgs.frame_congr {e e' : EncodeArgs} {m m' : Memory} (header : e.header = e'.header) (plen : e.plen = e'.plen)
    (payload : ∀ i, i < e.plen → Memory.read m (e.pbase + i) = Memory.read m' (e'.pbase + i)) : e.frame m = e'.frame m' := by
  rw [EncodeArgs.frame, EncodeArgs.frame, header, Memory.buf_eq_iff.mpr payload, plen]

section Success
variable {s : State} {c : Codec} {e : EncodeArgs}

/-- The state after an ENCODE that passes its checks: the codec is answered and the frame stands in memory. -/
theorem exec_encode_passes (hc : s.codecs[s.active]? = some c) (he : c.HoldsEncode e) (passes : e.Passes s.params)
    (hp : s.params.wf = true) :
    exec .encode s = .next
      { s.answered c { status := some 0, written := some (11 + e.plen) } with
        mem := Memory.writeBytes s.mem e.dbase (e.frame s.mem) } := by
  rw [exec_of_active _ hc, opRule, encodeOp_passes he passes, truncReg_written hp passes.plen]
  rfl

theorem State.answered_self (hc : s.codecs[s.active]? = some c) (o : RespRegs) :
    (s.answered c o).codecs[s.active]? = some { c with resp := o, phase := .idle } :=
  List.getElem?_set_self (List.getElem?_eq_some_iff.mp hc).1

end Success

/-- Settles O20: WRITTEN holds the frame's length whole (`truncReg_written`), and the payload has at most 255 bytes. -/
theorem encodeReportsLength : Obligations.EncodeReportsLength := by
  intro s c e hc he passes hp
  refine ⟨_, _, exec_encode_passes hc he passes hp, State.answered_self hc _, rfl, Nat.le_add_right 11 e.plen, ?_⟩
  exact Nat.add_le_add_left passes.plen 11

/-- Settles O19: memory holds the row of bytes written to it (`Memory.holds_writeBytes`), which splits into start byte, header,
payload and CRC; outside the row memory is as before. -/
theorem encodeWritesFrame : Obligations.EncodeWritesFrame := by
  intro s c e hc he passes hp hm
  refine ⟨_, exec_encode_passes hc he passes hp, rfl, ?_⟩
  have holds := Memory.holds_writeBytes hm e.dbase (e.frame s.mem)
  have outside : Memory.AgreeOutside e.target s.mem (Memory.writeBytes s.mem e.dbase (e.frame s.mem)) :=
    e.rowAt_frame s.mem ▸ Memory.agreeOutside_writeBytes hm e.dbase (e.frame s.mem)
  dsimp only
  generalize Memory.writeBytes s.mem e.dbase (e.frame s.mem) = m at holds outside
  obtain ⟨start, message, crc⟩ := Memory.holds_frameBytes.mp holds
  obtain ⟨header, payload⟩ := Memory.holds_append.mp message
  obtain ⟨ver, dst, src, type, cmdId, seq, last, len⟩ := EncodeArgs.holds_header.mp header
  have plen : (Memory.read m (e.dbase + 8)).toNat = e.plen := by
    rw [len, BitVec.toNat_ofNat, Nat.mod_eq_of_lt (Nat.lt_succ_of_le passes.plen)]
  have length : (e.header ++ Memory.buf s.mem e.pbase e.plen).length = 8 + e.plen := by
    rw [List.length_append, EncodeArgs.header_length, Memory.buf_length]
  rw [Memory.Holds, length] at message
  have behind : e.dbase + 1 + (8 + e.plen) = e.dbase + 9 + e.plen := by omega
  have behind' : e.dbase + 9 + e.plen + 1 = e.dbase + 10 + e.plen := by omega
  rw [length, behind, ← message, crcBytes, Memory.holds_cons, behind', Memory.holds_cons] at crc
  obtain ⟨high, low, -⟩ := crc
  exact ⟨start, ver, dst, src, type, cmdId, seq, last.trans (zeroExtend_bit e.last), plen, Memory.holds_buf.mp payload,
    ⟨high, low⟩, outside⟩

/-- Settles O21: only an ENCODE that passed every check writes (`encodeOp_done`), and it writes the row of its frame. -/
theorem encodeTouchesOnlyItsFrame : Obligations.EncodeTouchesOnlyItsFrame := by
  intro s t c a hc hm h outside
  obtain ⟨d, hd, rfl⟩ := exec_next h
  cases hc.symm.trans hd
  rw [State.finish_mem]
  cases ho : opRule .encode s.params c.req s.mem with
  | done resp m =>
    obtain ⟨e, he, -, -, rfl⟩ := encodeOp_done ho
    exact Memory.agreeOutside_writeBytes hm _ _ a (by rw [e.rowAt_frame, outside e he])
  | raised | faulted | refused => rfl

/-- Settles O25: both rows written are the frame of the same bytes (`EncodeArgs.frame_congr`). -/
theorem encodeIsDeterministic : Obligations.EncodeIsDeterministic := by
  intro s s' t t' c c' d d' e e' hc he passes hp hm hc' he' passes' hp' hm' ver dst src type cmdId seq last plen payload
    h h' hd hd'
  cases (exec_encode_passes hc he passes hp).symm.trans h
  cases (exec_encode_passes hc' he' passes' hp').symm.trans h'
  cases (State.answered_self hc _).symm.trans hd
  cases (State.answered_self hc' _).symm.trans hd'
  have header : e.header = e'.header := by
    simp only [EncodeArgs.header, ver, dst, src, type, cmdId, seq, last, plen]
  have frame : e.frame s.mem = e'.frame s'.mem := EncodeArgs.frame_congr header plen payload
  refine ⟨by rw [plen], rfl, Memory.buf_eq_iff.mp ?_⟩
  have holds := Memory.holds_writeBytes hm e.dbase (e.frame s.mem)
  have holds' := Memory.holds_writeBytes hm' e'.dbase (e'.frame s'.mem)
  rw [Memory.Holds, EncodeArgs.frame_length] at holds holds'
  rw [plen] at holds ⊢
  exact holds.trans (frame.trans holds'.symm)

end Sys2Proof.Machine
end

section
/-! PROOFS. A changed byte changes the CRC (42_decoder.md R161): the shift, the byte step and the run over a message are all
one-to-one in the register, and the byte step is one-to-one in the byte. -/
namespace Sys2Proof.Machine

/-- The polynomial's bit 0 is set and a shifted-out word's is clear, so bit 0 tells whether the polynomial went in. -/
theorem crcShift_bit0 (c : CrcWord) : (crcShift c).getLsbD 0 = c.getLsbD 15 := by
  rw [crcShift]
  split
  · next top =>
    rw [top]
    simp [crcPoly]
  · next top =>
    rw [Bool.not_eq_true] at top
    rw [top]
    simp

/-- From the top bit and the other fifteen, shifted up, the word is known. -/
theorem eq_of_shiftLeft_one {c d : CrcWord} (top : c.getLsbD 15 = d.getLsbD 15) (rest : c <<< 1 = d <<< 1) : c = d := by
  ext i hi
  by_cases last : i = 15
  · subst last
    exact top
  · have bit := congrArg (BitVec.getLsbD · (i + 1)) rest
    have inside : i + 1 < 16 := by omega
    simpa [inside] using bit

theorem crcShift_injective : Function.Injective crcShift := by
  intro c d h
  have top : c.getLsbD 15 = d.getLsbD 15 := by rw [← crcShift_bit0, ← crcShift_bit0, h]
  refine eq_of_shiftLeft_one top ?_
  rw [crcShift, crcShift, top] at h
  split at h
  · exact (BitVec.xor_left_inj _).mp h
  · exact h

theorem repeat_crcShift_injective (n : Nat) : Function.Injective (Nat.repeat crcShift n) := by
  induction n with
  | zero => exact Function.injective_id
  | succ n ih => exact crcShift_injective.comp ih

theorem crcUpdate_injective_register (b : Byte) : Function.Injective (crcUpdate · b) := fun _ _ h =>
  (BitVec.xor_left_inj _).mp (repeat_crcShift_injective 8 h)

/-- The high half of a word holds a byte whole. -/
theorem highByte_injective : Function.Injective fun b : Byte => (b.zeroExtend 16 <<< 8 : CrcWord) := by
  intro b b' h
  ext i hi
  have bit := congrArg (BitVec.getLsbD · (8 + i)) h
  have inside : 8 + i < 16 := by omega
  simpa [inside, hi] using bit

theorem crcUpdate_injective_byte (c : CrcWord) : Function.Injective (crcUpdate c) := fun _ _ h =>
  highByte_injective ((BitVec.xor_right_inj _).mp (repeat_crcShift_injective 8 h))

theorem crcContinue_injective (bytes : List Byte) : Function.Injective (crcContinue · bytes) := by
  induction bytes with
  | nil => exact Function.injective_id
  | cons b bytes ih => exact ih.comp (crcUpdate_injective_register b)

/-- Settles O15: the registers part at the changed byte (`crcUpdate_injective_byte`) and no later byte brings them together
(`crcContinue_injective`). -/
theorem crcDetectsOneChangedByte : Obligations.CrcDetectsOneChangedByte := by
  intro x y b b' changed same
  rw [crc16_append, crc16_append] at same
  exact changed (crcUpdate_injective_byte _ (crcContinue_injective y same))

end Sys2Proof.Machine
end

section
/-! PROOFS. The decoder (42_decoder.md R150 to R161): what DECODE answers on a legal region, said once (`decodeAnswer`) and tied
to `exec` (`exec_decode_legal`). From it, the end at each check, the valid frame, and the bytes past the frame. -/
namespace Sys2Proof.Machine

/-! ### What DECODE answers on a legal region -/

/-- The response registers DECODE leaves for the buffer `[base, base + n)`, its checks in the order of R158. -/
def decodeAnswer (m : Memory) (base n : Nat) : RespRegs :=
  let l := (Memory.read m (base + 8)).toNat
  if n < 11 then { status := some 1 }
  else if Memory.read m base ≠ 0x7E then { status := some 2 }
  else if n < 11 + l then { status := some 3 }
  else if (crc16 (Memory.buf m (base + 1) (8 + l))).toNat
      ≠ (Memory.read m (base + 9 + l)).toNat * 256 + (Memory.read m (base + 10 + l)).toNat then { status := some 4 }
  else RespRegs.ofFrame (fieldsAt m base l)

/-- The received CRC is its two bytes joined, high byte first (20_memory.md R55). -/
theorem receivedCrc_eq_append (m : Memory) (base l : Nat) :
    receivedCrc m base l = Memory.read m (base + 9 + l) ++ Memory.read m (base + 10 + l) := by
  rw [BitVec.append_def, BitVec.shiftLeftZeroExtend_eq, BitVec.setWidth'_eq, receivedCrc]

theorem receivedCrc_toNat (m : Memory) (base l : Nat) :
    (receivedCrc m base l).toNat
      = (Memory.read m (base + 9 + l)).toNat * 256 + (Memory.read m (base + 10 + l)).toNat := by
  rw [receivedCrc_eq_append, BitVec.toNat_append, ← Nat.shiftLeft_add_eq_or_of_lt (BitVec.isLt _), Nat.shiftLeft_eq]

/-- The payload view of a frame inside memory fits `F_PBASE`, so the fields are those of the frame (R157). -/
theorem decodedRegs_eq {p : Params} {m : Memory} {base l : Nat} (fits : base + 9 < 2 ^ p.addrW) :
    decodedRegs p m base l = RespRegs.ofFrame (fieldsAt m base l) := by
  rw [decodedRegs, truncReg_of_lt fits]
  rfl

section Decode
variable {s : State} {c : Codec} {m : Memory} {base n l : Nat}

theorem exec_decode_legal (hc : s.codecs[s.active]? = some c) (hi : c.HoldsInput base n) (legal : base + n ≤ 2 ^ s.params.addrW) :
    exec .decode s = .next (s.answered c (decodeAnswer s.mem base n)) := by
  rw [exec_of_active _ hc, opRule, decodeOp_eq hi.base hi.len, if_neg (not_not.mpr legal), decodeAnswer]
  simp only [ne_eq, ← receivedCrc_toNat, BitVec.toNat_inj]
  split_ifs with small start short crc
  · rfl
  · rfl
  · rw [decodedRegs_eq (by omega)]
    rfl
  · rfl
  · rfl

/-! ### The answer at each check, in their order -/

theorem decodeAnswer_small (small : n < 11) : decodeAnswer m base n = { status := some 1 } := if_pos small

theorem decodeAnswer_badStart (long : 11 ≤ n) (start : Memory.read m base ≠ 0x7E) :
    decodeAnswer m base n = { status := some 2 } := by
  rw [decodeAnswer, if_neg (Nat.not_lt.mpr long), if_pos start]

theorem decodeAnswer_badLength (long : 11 ≤ n) (start : Memory.read m base = 0x7E)
    (short : n < 11 + (Memory.read m (base + 8)).toNat) : decodeAnswer m base n = { status := some 3 } := by
  rw [decodeAnswer, if_neg (Nat.not_lt.mpr long), if_neg (not_not.mpr start), if_pos short]

/-- A buffer that holds a declared frame whole: what is left to DECODE is the CRC. -/
theorem decodeAnswer_whole (start : Memory.read m base = 0x7E) (length : (Memory.read m (base + 8)).toNat = l)
    (room : 11 + l ≤ n) :
    decodeAnswer m base n =
      if (crc16 (Memory.buf m (base + 1) (8 + l))).toNat
          ≠ (Memory.read m (base + 9 + l)).toNat * 256 + (Memory.read m (base + 10 + l)).toNat then { status := some 4 }
      else RespRegs.ofFrame (fieldsAt m base l) := by
  rw [decodeAnswer, length, if_neg (by omega), if_neg (not_not.mpr start), if_neg (Nat.not_lt.mpr room)]

theorem decodeAnswer_valid (frame : ValidFrame m base n l) : decodeAnswer m base n = RespRegs.ofFrame (fieldsAt m base l) := by
  rw [decodeAnswer_whole frame.start frame.length frame.room, if_neg (not_not.mpr frame.crc)]

end Decode

/-- Settles O28: by the first check (`decodeAnswer_small`). -/
theorem decodeRejectsSmallBuffer : Obligations.DecodeRejectsSmallBuffer := by
  intro s c base n hc hi legal small
  rw [exec_decode_legal hc hi legal, decodeAnswer_small small]

/-- Settles O29: by the second check (`decodeAnswer_badStart`). -/
theorem decodeRejectsBadStartByte : Obligations.DecodeRejectsBadStartByte := by
  intro s c base n hc hi legal long start
  rw [exec_decode_legal hc hi legal, decodeAnswer_badStart long start]

/-- Settles O30: by the third check (`decodeAnswer_badLength`). -/
theorem decodeRejectsBadLength : Obligations.DecodeRejectsBadLength := by
  intro s c base n hc hi legal long start short
  rw [exec_decode_legal hc hi legal, decodeAnswer_badLength long start short]

/-- Settles O31: by the last check (`decodeAnswer_whole`). -/
theorem decodeRejectsBadCrc : Obligations.DecodeRejectsBadCrc := by
  intro s c base n l hc hi legal room start length mismatch
  rw [exec_decode_legal hc hi legal, decodeAnswer_whole start length room, if_pos mismatch]

/-- Settles O27: no check ends DECODE on a valid frame (`decodeAnswer_valid`). -/
theorem decodeAcceptsValidFrame : Obligations.DecodeAcceptsValidFrame := by
  intro s c base n l hc hi legal frame
  rw [exec_decode_legal hc hi legal, decodeAnswer_valid frame]

/-! ### Bytes past the declared frame (42_decoder.md R154) -/

/-- DECODE reads no byte past the frame that the length byte declares. -/
theorem decodeAnswer_congr {m m' : Memory} {base : Nat} (n : Nat)
    (alike : ∀ a, base ≤ a → a < base + 11 + (Memory.read m (base + 8)).toNat → Memory.read m' a = Memory.read m a) :
    decodeAnswer m' base n = decodeAnswer m base n := by
  have length : Memory.read m' (base + 8) = Memory.read m (base + 8) := alike _ (by omega) (by omega)
  rw [decodeAnswer, decodeAnswer, length]
  generalize (Memory.read m (base + 8)).toNat = l at alike
  have byte : ∀ i, i < 11 + l → Memory.read m' (base + i) = Memory.read m (base + i) := fun i hi =>
    alike _ (by omega) (by omega)
  have message : Memory.buf m' (base + 1) (8 + l) = Memory.buf m (base + 1) (8 + l) :=
    Memory.buf_congr fun i hi => alike _ (by omega) (by omega)
  have fields : fieldsAt m' base l = fieldsAt m base l := by
    simp only [fieldsAt, byte 1 (by omega), byte 2 (by omega), byte 3 (by omega), byte 4 (by omega), byte 5 (by omega),
      byte 6 (by omega), byte 7 (by omega)]
  rw [message, fields, alike base (by omega) (by omega), alike (base + 9 + l) (by omega) (by omega),
    alike (base + 10 + l) (by omega) (by omega)]

/-- Settles O32: on a legal region both runs give the same answer (`decodeAnswer_congr`), on an illegal one both refuse. -/
theorem decodeIgnoresTrailingBytes : Obligations.DecodeIgnoresTrailingBytes := by
  intro s m c base n hc hi alike
  have hc' : ({ s with mem := m } : State).codecs[s.active]? = some c := hc
  by_cases legal : base + n ≤ 2 ^ s.params.addrW
  case pos =>
    have answer := decodeAnswer_congr n alike
    refine ⟨_, _, exec_decode_legal hc hi legal, exec_decode_legal hc' hi legal, ?_, rfl, fun l _ frame room => ?_⟩
    · exact congrArg (fun o => (s.answered c o).codecs) answer
    · have whole : ValidFrame s.mem base n l := { frame with room }
      exact ⟨_, State.answered_self hc' _, by rw [answer, decodeAnswer_valid whole]; rfl⟩
  case neg =>
    have past : 2 ^ s.params.addrW < base + n := Nat.not_le.mp legal
    have refusal := ((illegalRegionIsRefused s c hc).1 base n hi past).2
    have refusal' := ((illegalRegionIsRefused _ c hc').1 base n hi past).2
    exact ⟨_, _, refusal, refusal', rfl, rfl, fun _ legal' => absurd legal' legal⟩

end Sys2Proof.Machine
end

section
/-! PROOFS. DECODE inverts ENCODE (42_decoder.md R160): memory that holds an encoded frame holds a valid frame with the fields and
the payload bytes it was encoded from. -/
namespace Sys2Proof.Machine

theorem Memory.Holds.of_agreeOn {m m' : Memory} {base : Nat} {vs : List Byte} (holds : m.Holds base vs)
    (agree : Memory.AgreeOn (rowAt base vs) m m') : m'.Holds base vs :=
  (agree.buf_eq fun i hi => (rowAt_has_iff _ _ _).mpr ⟨by omega, by omega⟩).trans holds

/-- The two bytes of a CRC word in memory, read as a big-endian number (20_memory.md R55). -/
theorem Memory.Holds.crcBytes_toNat {m : Memory} {base : Nat} {w : CrcWord} (holds : m.Holds base (crcBytes w)) :
    w.toNat = (Memory.read m base).toNat * 256 + (Memory.read m (base + 1)).toNat := by
  obtain ⟨high, rest⟩ := Memory.holds_cons.mp holds
  obtain ⟨low, -⟩ := Memory.holds_cons.mp rest
  have bound := w.isLt
  rw [high, low, BitVec.extractLsb'_toNat, BitVec.extractLsb'_toNat, Nat.shiftRight_zero, Nat.shiftRight_eq_div_pow]
  omega

/-- `F_LAST` reads the byte ENCODE made of `I_LAST` back (41_encoder.md R130, 42_decoder.md R156). -/
theorem lastBit_zeroExtend (b : BitVec 1) : (if b.zeroExtend 8 = 0 then 0 else 1) = b := by
  revert b
  decide

section Frame
variable {e : EncodeArgs} {m m₀ : Memory} {base n : Nat}

/-- The parts of an encoded frame in memory, by offset (30_encoding.md R70): start byte, header, payload and CRC. -/
theorem EncodeArgs.holds_frame (holds : m.Holds base (e.frame m₀)) :
    Memory.read m base = 0x7E ∧ m.Holds (base + 1) e.header ∧ m.Holds (base + 9) (Memory.buf m₀ e.pbase e.plen) ∧
      m.Holds (base + 9 + e.plen) (crcBytes (crc16 (Memory.buf m (base + 1) (8 + e.plen)))) := by
  obtain ⟨start, message, crc⟩ := Memory.holds_frameBytes.mp holds
  obtain ⟨header, payload⟩ := Memory.holds_append.mp message
  have length : (e.header ++ Memory.buf m₀ e.pbase e.plen).length = 8 + e.plen := by
    rw [List.length_append, EncodeArgs.header_length, Memory.buf_length]
  have behind : base + 1 + (8 + e.plen) = base + 9 + e.plen := by omega
  rw [Memory.Holds, length] at message
  rw [length, behind, ← message] at crc
  exact ⟨start, header, payload, crc⟩

/-- The length byte of the header holds a short payload's length whole. -/
theorem EncodeArgs.length_of_holds_frame (holds : m.Holds base (e.frame m₀)) (short : e.plen ≤ 255) :
    (Memory.read m (base + 8)).toNat = e.plen := by
  obtain ⟨-, header, -, -⟩ := EncodeArgs.holds_frame holds
  obtain ⟨-, -, -, -, -, -, -, length⟩ := EncodeArgs.holds_header.mp header
  rw [length, BitVec.toNat_ofNat, Nat.mod_eq_of_lt (Nat.lt_succ_of_le short)]

theorem EncodeArgs.validFrame_of_holds (holds : m.Holds base (e.frame m₀)) (short : e.plen ≤ 255) (room : 11 + e.plen ≤ n) :
    ValidFrame m base n e.plen := by
  obtain ⟨start, -, -, crc⟩ := EncodeArgs.holds_frame holds
  have second : base + 9 + e.plen + 1 = base + 10 + e.plen := by omega
  exact ⟨start, EncodeArgs.length_of_holds_frame holds short, room, second ▸ crc.crcBytes_toNat⟩

theorem EncodeArgs.fieldsAt_of_holds (holds : m.Holds base (e.frame m₀)) :
    fieldsAt m base e.plen =
      { ver := e.ver, dst := e.dst, src := e.src, type := e.type, cmdId := e.cmdId, seq := e.seq, last := e.last,
        pbase := base + 9, plen := e.plen } := by
  obtain ⟨-, header, -, -⟩ := EncodeArgs.holds_frame holds
  obtain ⟨ver, dst, src, type, cmdId, seq, last, -⟩ := EncodeArgs.holds_header.mp header
  simp only [Nat.add_assoc, Nat.reduceAdd] at ver dst src type cmdId seq last
  rw [fieldsAt, ver, dst, src, type, cmdId, seq, last, lastBit_zeroExtend]

end Frame

/-- Settles O33: the frame ENCODE wrote still stands in memory at DECODE, where it is a valid frame
(`EncodeArgs.validFrame_of_holds`) with the fields it was encoded from (`EncodeArgs.fieldsAt_of_holds`). -/
theorem decodeInvertsEncode : Obligations.DecodeInvertsEncode := by
  intro s t u c d e n hc he passes hm h hd hi room legal agree
  have written : t.mem = Memory.writeBytes s.mem e.dbase (e.frame s.mem) := by
    cases (exec_of_active .encode hc).symm.trans h
    rw [State.finish_mem, opRule, encodeOp_passes he passes]
    rfl
  have holds : t.mem.Holds e.dbase (e.frame s.mem) := written ▸ Memory.holds_writeBytes hm e.dbase (e.frame s.mem)
  have kept : u.mem.Holds e.dbase (e.frame s.mem) := holds.of_agreeOn (e.rowAt_frame s.mem ▸ agree)
  have frame : ValidFrame u.mem e.dbase n e.plen := EncodeArgs.validFrame_of_holds kept passes.plen room
  obtain ⟨-, -, payload, -⟩ := EncodeArgs.holds_frame kept
  rw [Memory.Holds, Memory.buf_length] at payload
  refine ⟨_, decodeAcceptsValidFrame u d e.dbase n e.plen hd hi legal frame, ?_, payload⟩
  rw [EncodeArgs.fieldsAt_of_holds kept]

end Sys2Proof.Machine
end

section
/-! PROOFS. A valid frame with one byte changed (42_decoder.md R161): past the start byte and outside the length byte, the change
shows in the CRC, either of the message (`crcDetectsOneChangedByte`) or in the field that holds it. -/
namespace Sys2Proof.Machine

/-- A buffer around one of its bytes. -/
theorem Memory.buf_around (m : Memory) (base : Nat) {n i : Nat} (hi : i < n) :
    Memory.buf m base n
      = Memory.buf m base i ++ Memory.read m (base + i) :: Memory.buf m (base + i + 1) (n - i - 1) := by
  rw [← Memory.buf_succ, ← Memory.buf_append]
  congr 1
  omega

section Changed
variable {m : Memory} {base l off : Nat} {v : Byte}

theorem Memory.buf_write_outside (hm : Memory.wf m = true) {a n : Nat} (outside : a < base ∨ base + n ≤ a) :
    Memory.buf (Memory.write m a v) base n = Memory.buf m base n :=
  Memory.buf_congr fun i hi => by rw [Memory.read_write hm, if_neg (by omega)]

/-- A byte of a buffer changed is a byte of its message changed, so the CRC differs. -/
theorem crc16_buf_write_ne (hm : Memory.wf m = true) {n i : Nat} (hi : i < n) (changed : v ≠ Memory.read m (base + i)) :
    crc16 (Memory.buf (Memory.write m (base + i) v) base n) ≠ crc16 (Memory.buf m base n) := by
  rw [Memory.buf_around _ base hi, Memory.buf_around m base hi, Memory.buf_write_outside hm (by omega),
    Memory.buf_write_outside hm (by omega), Memory.read_write hm, if_pos rfl]
  exact crcDetectsOneChangedByte _ _ _ _ changed

/-- A byte changed in the message or in the CRC field: the two no longer agree. -/
theorem ValidFrame.crc_mismatch_of_write (frame : ValidFrame m base (11 + l) l) (hm : Memory.wf m = true)
    (changed : v ≠ Memory.read m (base + off)) (pastStart : off ≠ 0) (inside : off < 11 + l) :
    (crc16 (Memory.buf (Memory.write m (base + off) v) (base + 1) (8 + l))).toNat
      ≠ (Memory.read (Memory.write m (base + off) v) (base + 9 + l)).toNat * 256
        + (Memory.read (Memory.write m (base + off) v) (base + 10 + l)).toNat := by
  have crc := frame.crc
  by_cases message : off < 9 + l
  case pos =>
    obtain ⟨i, rfl⟩ : ∃ i, off = 1 + i := ⟨off - 1, by omega⟩
    rw [← Nat.add_assoc] at changed ⊢
    rw [Memory.read_write hm, Memory.read_write hm, if_neg (by omega), if_neg (by omega), ← crc, Ne, BitVec.toNat_inj]
    exact crc16_buf_write_ne hm (by omega) changed
  case neg =>
    rw [Memory.buf_write_outside hm (by omega), crc, Memory.read_write hm, Memory.read_write hm]
    rw [Ne, ← BitVec.toNat_inj] at changed
    obtain rfl | rfl : off = 9 + l ∨ off = 10 + l := by omega
    · rw [← Nat.add_assoc] at changed ⊢
      rw [if_pos rfl, if_neg (by omega)]
      omega
    · rw [← Nat.add_assoc] at changed ⊢
      rw [if_neg (by omega), if_pos rfl]
      omega

/-- A byte changed past the start byte and not in the length: the frame is still found whole, and its CRC fails. -/
theorem ValidFrame.decodeAnswer_write_elsewhere (frame : ValidFrame m base (11 + l) l) (hm : Memory.wf m = true)
    (changed : v ≠ Memory.read m (base + off)) (pastStart : off ≠ 0) (notLength : off ≠ 8) (inside : off < 11 + l) :
    decodeAnswer (Memory.write m (base + off) v) base (11 + l) = { status := some 4 } := by
  rw [decodeAnswer_whole (l := l) _ _ (Nat.le_refl _), if_pos (frame.crc_mismatch_of_write hm changed pastStart inside)]
  · rw [Memory.read_write hm, if_neg (by omega), frame.start]
  · rw [Memory.read_write hm, if_neg (by omega), frame.length]

/-- The start byte changed. -/
theorem ValidFrame.decodeAnswer_write_start (frame : ValidFrame m base (11 + l) l) (hm : Memory.wf m = true)
    (changed : v ≠ Memory.read m base) : decodeAnswer (Memory.write m base v) base (11 + l) = { status := some 2 } := by
  refine decodeAnswer_badStart (Nat.le_add_right 11 l) ?_
  rwa [Memory.read_write hm, if_pos rfl, ← frame.start]

/-- The length byte changed: a longer frame does not fit the buffer, in a shorter one the CRC decides. -/
theorem ValidFrame.decodeAnswer_write_longer (frame : ValidFrame m base (11 + l) l) (hm : Memory.wf m = true)
    (longer : l < v.toNat) : decodeAnswer (Memory.write m (base + 8) v) base (11 + l) = { status := some 3 } := by
  refine decodeAnswer_badLength (Nat.le_add_right 11 l) ?_ ?_
  · rw [Memory.read_write hm, if_neg (by omega), frame.start]
  · rw [Memory.read_write hm, if_pos rfl]
    omega

theorem ValidFrame.decodeAnswer_write_shorter (frame : ValidFrame m base (11 + l) l) (hm : Memory.wf m = true)
    (shorter : v.toNat < l) :
    (decodeAnswer (Memory.write m (base + 8) v) base (11 + l)).status = some 4 ∨
      (decodeAnswer (Memory.write m (base + 8) v) base (11 + l)).status = some 0 := by
  rw [decodeAnswer_whole (l := v.toNat) _ _ (by omega)]
  · split
    · exact .inl rfl
    · exact .inr rfl
  · rw [Memory.read_write hm, if_neg (by omega), frame.start]
  · rw [Memory.read_write hm, if_pos rfl]

end Changed

/-- Settles O34: by the offset of the changed byte, the start byte, the length byte (longer or shorter) or any other
(`ValidFrame.decodeAnswer_write_elsewhere`). -/
theorem decodeDetectsOneChangedByte : Obligations.DecodeDetectsOneChangedByte := by
  intro s c base l off v hc hi legal hm frame inside changed
  have hc' : ({ s with mem := Memory.write s.mem (base + off) v } : State).codecs[s.active]? = some c := hc
  refine ⟨_, _, exec_decode_legal hc' hi legal, State.answered_self hc' _, ?start, ?other, ?longer, ?shorter⟩
  case start =>
    rintro rfl
    exact frame.decodeAnswer_write_start hm changed
  case other => exact fun pastStart notLength => frame.decodeAnswer_write_elsewhere hm changed pastStart notLength inside
  case longer =>
    rintro rfl longer
    exact frame.decodeAnswer_write_longer hm longer
  case shorter =>
    rintro rfl shorter
    exact frame.decodeAnswer_write_shorter hm shorter

end Sys2Proof.Machine
end

section
/-! PROOFS. Errors, faults and refusals (60_exceptions.md): an error is precise (R181), a faulted instance stays as it is (R186),
and a refusal sets the mark and does nothing else (R187). -/
namespace Sys2Proof.Machine

/-! ### Errors (R181) -/

/-- Every success reports `OK` (30_encoding.md R84). -/
theorem OpAnswer.done_status {p : Params} {m m' : Memory} {i : Instr} {resp : RespRegs}
    (h : OpAnswer p m i (.done resp m')) : resp.status = some 0 := by
  cases h with
  | crc16 | frame | encode => rfl

/-- Settles O38: of the four ways an operation ends, a success reports `OK` (`OpAnswer.done_status`), and a fault or a refusal
leaves the codec busy; so the status is an error's, which only completes the codec (`State.finish_raised`). -/
theorem errorsArePrecise : Obligations.ErrorsArePrecise := by
  intro i s t c c' x hc busy h hc' idle status nonzero
  obtain rfl := Host.Outcome.next.inj ((exec_of_active i hc).symm.trans h)
  have answer := opRule_answers s.params c.req s.mem i
  generalize opRule i s.params c.req s.mem = o at answer hc'
  obtain rfl := Option.some.inj ((State.finish_self s _ c o hc).symm.trans hc')
  cases o with
  | done resp m => exact absurd (Option.some.inj (status.symm.trans answer.done_status)) nonzero
  | raised e =>
    obtain rfl : e.code = x := Option.some.inj status
    exact ⟨⟨e, rfl⟩, State.finish_raised s c e⟩
  | faulted f => cases busy.symm.trans idle
  | refused r => cases busy.symm.trans idle

/-! ### Model faults (R186) -/

/-- Of a codec's moves a faulted codec makes none but a RESET of it: its record is the first fault's, the host's register
accesses to it are held, and its COMPLETE is not enabled. -/
theorem CodecMove.of_faulted {s : State} {k : Nat} {c c' : Codec} {f : ModelFault} (move : CodecMove s k c c')
    (hc : s.codecs[k]? = some c) (fault : c.fault = some f) :
    c' = c ∨ ((∃ rest, s.program = .reset k :: rest) ∧ c' = { fault := c.fault }) := by
  cases move with
  | stays => exact .inl rfl
  | faults g => exact .inl (c.record_of_faulted fault)
  | writes turn | startFails turn | starts turn => cases fault.symm.trans (turn.free rfl hc).2
  | resets turn => exact .inr ⟨⟨_, turn.program⟩, rfl⟩
  | completes i turn =>
    obtain ⟨d, op, fp, hd, -, clear⟩ := State.enabled_codec (State.turn_enabled turn)
    cases hc.symm.trans hd
    cases fault.symm.trans clear

/-- Settles O53: a step moves a faulted codec only by a RESET of it (`CodecMove.of_faulted`), which keeps the fault record. -/
theorem faultedInstanceStays : Obligations.FaultedInstanceStays := by
  intro s t k c f hc fault h
  have moves := step_moves h
  obtain ⟨c', hc'⟩ : ∃ c', t.codecs[k]? = some c' :=
    ⟨_, List.getElem?_eq_getElem (moves.count ▸ (List.getElem?_eq_some_iff.mp hc).1)⟩
  obtain rfl | ⟨⟨rest, reset⟩, rfl⟩ := (moves.each k c c' hc hc').of_faulted hc fault
  · exact ⟨⟨_, hc', fault⟩, fun _ => hc'⟩
  · exact ⟨⟨_, hc', fault⟩, fun noReset => absurd reset (noReset rest)⟩

/-! ### Refusals (R187) -/

/-- From `s` to `t` the refused mark stays as it is, or is set and nothing else is done. -/
def State.RefusesOrGoesOn (s t : State) : Prop := t.refused = s.refused ∨ ∃ r, t = s.refuse r

section Refuses
variable {s t : State}

theorem State.RefusesOrGoesOn.of_refuse (s : State) (r : Request) : s.RefusesOrGoesOn (s.refuse r) := .inr ⟨r, rfl⟩

/-- From a state whose mark is clear, a state with the mark set differs in the mark alone. -/
theorem State.RefusesOrGoesOn.exists_refuse (h : s.RefusesOrGoesOn t) (clear : s.refused = none)
    (marked : t.refused.isSome = true) : ∃ r, t = s.refuse r := by
  refine h.resolve_left fun same => ?_
  rw [same, clear] at marked
  cases marked

theorem State.finish_refusesOrGoesOn (s : State) (k : Nat) (c : Codec) (o : OpEnd) : s.RefusesOrGoesOn (s.finish k c o) := by
  cases o with
  | done | raised | faulted => exact .inl rfl
  | refused r => exact .of_refuse s r

theorem State.start_refusesOrGoesOn (s : State) (k : Nat) (c : Codec) (op : Byte) : s.RefusesOrGoesOn (s.start k c op) := by
  obtain ⟨v, -, h⟩ | ⟨i, -, ⟨r, -, h⟩ | ⟨-, -, h⟩ | ⟨-, -, h⟩⟩ := start_cases s k c op <;> rw [h]
  · exact .of_refuse s _
  · exact .inl rfl
  · exact .inl rfl
  · exact .inl rfl

theorem State.hostWrite_refusesOrGoesOn (s : State) (k : Nat) (c : Codec) (n : RegNum) (v : Nat) :
    s.RefusesOrGoesOn (s.hostWrite k c n v) := by
  obtain h | h | ⟨-, -, h⟩ | ⟨r, -, -, -, -, h⟩ := hostWrite_cases s k c n v <;> rw [h]
  · exact .of_refuse s _
  · exact .of_refuse s _
  · exact s.start_refusesOrGoesOn k c _
  · exact .inl rfl

theorem State.hostRead_refusesOrGoesOn (s : State) (k : Nat) (c : Codec) (n : RegNum) :
    s.RefusesOrGoesOn (s.hostRead k c n) := by
  unfold State.hostRead
  split
  · exact .of_refuse s _
  · split
    · exact .inl rfl
    · exact .inl rfl

theorem State.hostMemWrite_refusesOrGoesOn (s : State) (a : Nat) (v : Byte) : s.RefusesOrGoesOn (s.hostMemWrite a v) := by
  unfold State.hostMemWrite
  split_ifs
  · exact .of_refuse s _
  · exact .inl rfl
  · exact .inl rfl

theorem State.hostMemRead_refusesOrGoesOn (s : State) (a : Nat) : s.RefusesOrGoesOn (s.hostMemRead a) := by
  unfold State.hostMemRead
  split_ifs
  · exact .of_refuse s _
  · exact .inl rfl
  · exact .inl rfl

theorem State.hostReset_refusesOrGoesOn (s : State) (k : Nat) (c : Codec) : s.RefusesOrGoesOn (s.hostReset k c) := by
  unfold State.hostReset
  split
  · exact .of_refuse s _
  · exact .inl rfl

theorem State.hostAct_refusesOrGoesOn {a : HostAction} (h : State.hostAct s a = .next t) : s.RefusesOrGoesOn t := by
  obtain ⟨k, n, v, c, x, -, -, -, rfl⟩ | ⟨k, n, c, -, -, rfl⟩ | ⟨x, v, -, rfl⟩ | ⟨x, -, rfl⟩ | ⟨k, c, -, -, rfl⟩ :=
    hostAct_next h
  · exact s.hostWrite_refusesOrGoesOn k c n x
  · exact s.hostRead_refusesOrGoesOn k c n
  · exact s.hostMemWrite_refusesOrGoesOn x v
  · exact s.hostMemRead_refusesOrGoesOn x
  · exact s.hostReset_refusesOrGoesOn k c

theorem exec_refusesOrGoesOn {i : Instr} (h : exec i s = .next t) : s.RefusesOrGoesOn t := by
  obtain ⟨c, -, rfl⟩ := exec_next h
  exact s.finish_refusesOrGoesOn _ c _

/-- A step that sets the mark leaves every codec and memory alone, whichever agent it belongs to. -/
theorem step_frame_of_marked (h : step s = .next t) (marked : t.refused.isSome = true) : t.codecs = s.codecs ∧ t.mem = s.mem := by
  obtain ⟨clear, ⟨a, rest, -, -, -, hact⟩ | ⟨k, c, op, fp, -, -, -, -, ⟨i, -, hexec⟩ | ⟨v, -, rfl⟩⟩ | ⟨-, -, rfl⟩⟩ := step_next h
  · obtain ⟨r, rfl⟩ := (State.hostAct_refusesOrGoesOn hact).exists_refuse clear marked
    exact ⟨rfl, rfl⟩
  · obtain ⟨r, rfl⟩ := (exec_refusesOrGoesOn hexec).exists_refuse clear marked
    exact ⟨rfl, rfl⟩
  · exact ⟨rfl, rfl⟩
  · exact ⟨rfl, rfl⟩

end Refuses

/-- Settles O54: a step sets the mark by a refusal alone (`step_frame_of_marked`), and looks at the mark before anything else. -/
theorem refusalChangesOnlyTheMark : Obligations.RefusalChangesOnlyTheMark :=
  ⟨fun _ _ => step_frame_of_marked, fun s r marked => by simp only [step, marked]⟩

end Sys2Proof.Machine
end

section
/-! PROOFS. The reset state and RESET (70_reset_and_hazards.md R200 to R202): what a codec after reset reads, that every legal
launch meets the invariant, and what the step is when the host's next action is a RESET. -/
namespace Sys2Proof.Machine

/-! ### The reset state of one codec (R200) -/

@[simp] theorem Codec.read_reset (f : Option ModelFault) (r : Reg) : Codec.read { fault := f } r = none := by
  cases r <;> rfl

theorem Codec.sound_reset (p : Params) : Codec.Sound p {} :=
  ⟨Codec.fits_reset none, .of_idle rfl, .empty⟩

/-! ### Launch (R202) -/

section Launch
variable {p : Params} {n : Nat} {mem : Memory} {program : List HostAction} {schedule : List Agent}

theorem State.eq_reset_of_mem_launch {c : Codec} (hc : c ∈ (State.launch p n mem program schedule).codecs) : c = {} :=
  List.eq_of_mem_replicate hc

/-- Nothing is in flight at launch, so no two footprints conflict. -/
theorem State.launch_noConflict : (State.launch p n mem program schedule).NoConflict := by
  intro j k _ cj ck hj _ f g hf _
  cases State.eq_reset_of_mem_launch (List.mem_of_getElem? hj)
  cases hf

/-- Every legal launch meets the invariant, whatever the host is to do: legal parameters, a codec at least, and launch
bytes in canonical form inside the address space. -/
theorem State.launch_inv (hp : p.wf = true) (hn : 1 ≤ n) (hmem : mem.Sound p) : (State.launch p n mem program schedule).Inv := by
  have sound : ∀ c ∈ (State.launch p n mem program schedule).codecs, c.Sound p := fun c hc =>
    State.eq_reset_of_mem_launch hc ▸ Codec.sound_reset p
  exact
    { params := hp
      instances := hn.trans_eq List.length_replicate.symm
      mem := hmem
      fits := fun c hc => (sound c hc).fits
      inFlight := fun c hc => (sound c hc).inFlight
      legal := fun c hc => (sound c hc).legal
      noConflict := State.launch_noConflict }

end Launch

/-- Settles O1: every codec at launch is the one after reset (`eq_reset_of_mem_launch`), which reads ⊥ everywhere. -/
theorem launchStateIsResetState : Obligations.LaunchStateIsResetState := by
  intro p n mem program schedule
  refine ⟨List.length_replicate, fun c hc => ?_, rfl, rfl⟩
  cases State.eq_reset_of_mem_launch hc
  exact ⟨Codec.read_reset none, rfl, rfl⟩

/-- Settles O2: the reset state is a legal launch (`launch_inv`), with parameters that are legal and memory that lists nothing. -/
theorem resetStateIsSound : Obligations.ResetStateIsSound :=
  State.launch_inv (by decide) (by decide) ⟨rfl, fun _ listed => absurd listed List.not_mem_nil⟩

/-! ### RESET (R201) -/

section Reset
variable (s : State) (k : Nat) {c : Codec}

theorem State.hostReset_busy (busy : c.isBusy = true) : s.hostReset k c = { s with refused := some .resetBusy } :=
  if_pos busy

theorem State.hostReset_idle (idle : c.isBusy = false) : s.hostReset k c = s.withInstance k { fault := c.fault } :=
  if_neg (Bool.eq_false_iff.mp idle)

end Reset

theorem State.HostTurn.step_reset {s : State} {k : Nat} {c : Codec} {rest : List HostAction}
    (h : s.HostTurn (.reset k) rest) (hc : s.codecs[k]? = some c) : step s = .next ((s.taken rest).hostReset k c) := by
  simp [h.step_eq, State.hostAct, State.onInstance, hc]

/-- Settles O52: the step is the RESET (`step_reset`), refused while the codec is busy; where it is idle, it leaves
the codec after reset with the fault record it had. -/
theorem resetClearsRegisters : Obligations.ResetClearsRegisters := by
  intro s k c rest turn hc
  rw [turn.step_reset hc]
  refine ⟨fun busy => ?_, fun idle => ⟨{ fault := c.fault }, Codec.read_reset c.fault, rfl, rfl, ?_⟩⟩
  · rw [State.hostReset_busy _ k busy]
  · rw [State.hostReset_idle _ k idle]

end Sys2Proof.Machine
end
